-- ==== Sys2Proof/Word.lean ====
section
/-! DEFINITION. The words of the cipher (R8): bytes, 32-bit words and 64-bit blocks. -/

namespace Sys2Proof

/-- One byte of the buffer memory (R50). -/
abbrev Byte := BitVec 8

/-- Every register and every arithmetic value of the cipher: 32 bits, unsigned, wrapping (R8, R15). -/
abbrev Word := BitVec 32

/-- A cipher block, an IV or a chaining value: 64 bits (R8). -/
abbrev Block := BitVec 64

end Sys2Proof
end

