-- ==== Sys2Proof/Config.lean ====
section
/-! DEFINITION. The fixed sizes of the cipher (R9, R11, R12), the parameters the spec leaves OPEN (R10, R13, R14,
R68) and the free values. A `Params` is carried by every state, so that a claim over all states is a claim over all
parameters; the constants of `Config` below have no body, so nothing can be proved of the values they hold. -/

namespace Sys2Proof

/-- `ROUNDS = 32` (R9). -/
abbrev rounds : Nat := 32

/-- `MUTATION_PERIOD = 1024` bytes (R11). -/
abbrev mutationPeriod : Nat := 1024

/-- `KEY_BYTES = 16` (R12). -/
abbrev keyBytes : Nat := 16

/-- `IV_BYTES = 8` (R12). -/
abbrev ivBytes : Nat := 8

/-- The least and the greatest size of the buffer memory: `8 <= MEM_BYTES <= 2^32` (R14). -/
abbrev minMemBytes : Nat := 8
@[inherit_doc minMemBytes] abbrev maxMemBytes : Nat := 0x100000000

/-- The parameters a model takes as arguments. -/
structure Params where
  /-- `DELTA`, the round constant (R10). -/
  delta : Word
  /-- `DEFAULT_KEY`, 16 bytes, lowest address first (R13). -/
  defaultKey : Vector Byte 16
  /-- `MEM_BYTES`, the size of the buffer memory (R14). -/
  memBytes : Nat
  /-- `REG_BASE`, where the platform puts the register space; no rule reads it (R68). -/
  regBase : Nat
  /-- `MEM_BASE`, where the platform puts the buffer memory; no rule reads it (R68). -/
  memBase : Nat
deriving DecidableEq, Repr

/-- The recommended value of `DELTA` (R10), which every derived vector of `95_test_vectors.md` uses.
No definition of the model depends on it. -/
def Config.recommendedDelta : Word := 0x9E3779B9#32

/-- `DELTA` of the machine that `State.reset` resets (log 1). -/
opaque Config.delta : Word

/-- `DEFAULT_KEY` of the machine that `State.reset` resets (log 1). -/
opaque Config.defaultKey : Vector Byte 16

/-- `MEM_BYTES - 8` of the machine that `State.reset` resets, within the bounds of R14 (log 1). -/
opaque Config.extraMemBytes : Fin 4294967289

/-- `REG_BASE` (R68; log 1). -/
opaque Config.regBase : Nat

/-- `MEM_BASE` (R68; log 1). -/
opaque Config.memBase : Nat

/-- The parameters of the machine that `State.reset` resets (log 1). -/
def Config.params : Params :=
  { delta := Config.delta
    defaultKey := Config.defaultKey
    memBytes := minMemBytes + Config.extraMemBytes.val
    regBase := Config.regBase
    memBase := Config.memBase }

/-- The `k`-th free byte: an unspecified byte of memory (R208, R231, R237; log 7). -/
opaque Config.freeByte : Nat → Byte

/-- The `k`-th free word: an unspecified register value (R33, R238; log 7). -/
opaque Config.freeWord : Nat → Word

end Sys2Proof
end

