-- ==== Sys2Proof/Syntax.lean ====
section
/-! DEFINITION. The syntax: the eight commands (R72), the format of the command word (R70), the register names (R20)
and the host operations (R76). -/

namespace Sys2Proof

/-- The commands, one constructor per row of `spec/opcode_table.json` (R72). No command has an operand field (R70):
operands come from the host-visible registers (R74). -/
inductive Instr where
  /-- `CFG_KEY` (R170). -/
  | cfgKey
  /-- `CFG_IV` (R171). -/
  | cfgIv
  /-- `CFG_DEFAULT` (R172). -/
  | cfgDefault
  /-- `ENCRYPT` (R130). -/
  | encrypt
  /-- `DECRYPT` (R131). -/
  | decrypt
  /-- `CHECKSUM` (R129). -/
  | checksum
  /-- `ENCBLK` (R104). -/
  | encblk
  /-- `DECBLK` (R105). -/
  | decblk
deriving DecidableEq, Repr

/-- The one command format (R70), as its two fields. -/
structure CommandFields where
  /-- `RSV`, bits 31:4, must be zero. -/
  rsv : BitVec 28
  /-- `OPC`, bits 3:0. -/
  opc : BitVec 4
deriving DecidableEq, Repr

/-- The host-visible registers (R22 to R30). -/
inductive Reg where
  | cmd
  | status
  | srcAddr
  | srcLen
  | dstAddr
  | dstLen
  | blkLo
  | blkHi
  | csum
  /-- The seven reserved offsets 0x24 to 0x3C (R30). -/
  | reserved (slot : Fin 7)
deriving DecidableEq, Repr

/-- What the host may do to the core (R242): the forms of R76, one access each. A register access carries its width in
bits and its offset as the bus gives them, so that the accesses R21 forbids can be written down too. -/
inductive HostOp where
  | regWrite (width offset : Nat) (v : Word)
  | regRead (width offset : Nat)
  | memWrite (addr : Nat) (b : Byte)
  | memRead (addr : Nat)
  /-- The reset input (R230, R231). -/
  | reset
deriving DecidableEq, Repr

/-- One turn of one agent (R7): a host operation or the engine's completion step. -/
inductive Event where
  | host (op : HostOp)
  | engine
deriving DecidableEq, Repr

/-- What a host read returned. -/
inductive Reply where
  | word (v : Word)
  | byte (b : Byte)
deriving DecidableEq, Repr

end Sys2Proof
end

