-- ==== Sys2Proof/WellFormed.lean ====
section
/-! DEFINITION. The checks on syntax and parameters: the command word (R70, R71), the shape of a register access (R21)
and the bounds of the memory size (R14). -/

namespace Sys2Proof

/-- `RSV` is zero (R70). -/
abbrev CommandFields.RsvZero (f : CommandFields) : Prop := f.rsv = 0

/-- `OPC` is one of the assigned opcodes 0x1 to 0x8 (R72). -/
abbrev CommandFields.OpcAssigned (f : CommandFields) : Prop := 1 ≤ f.opc.toNat ∧ f.opc.toNat ≤ 8

/-- A legal command word (R71, R73). -/
abbrev CommandFields.WellFormed (f : CommandFields) : Prop := f.RsvZero ∧ f.OpcAssigned

/-- A register access is 32 bits wide, 4-aligned and inside the register space (R21). -/
abbrev RegAccessWellFormed (width offset : Nat) : Prop := width = 32 ∧ offset % 4 = 0 ∧ offset < 0x40

/-- A host operation of a shape R21 allows. -/
abbrev HostOp.WellFormed (op : HostOp) : Prop :=
  match op with
  | .regWrite width offset _ => RegAccessWellFormed width offset
  | .regRead width offset => RegAccessWellFormed width offset
  | .memWrite _ _ => True
  | .memRead _ => True
  | .reset => True

/-- `8 <= MEM_BYTES <= 2^32` (R14). -/
abbrev Params.WellFormed (p : Params) : Prop := minMemBytes ≤ p.memBytes ∧ p.memBytes ≤ maxMemBytes

end Sys2Proof
end

