-- ==== Sys2Proof/Decode.lean ====
section
/-! DEFINITION. Decoding the command word (R71), total over all 2^32 words and rejecting by name, with the encoder from
the same table (R72); and the register offsets, the encoding of a host operation's address field (R20, R78). -/

namespace Sys2Proof

/-- Why a word is no command (R73). -/
inductive IllegalWord where
  /-- `RSV != 0`. -/
  | reservedBits
  /-- `OPC` is 0x0 or one of 0x9 to 0xF. -/
  | reservedOpcode
deriving DecidableEq, Repr

/-- What a command word decodes to (R71). -/
inductive Decoded where
  | command (i : Instr)
  | illegal (why : IllegalWord)
deriving DecidableEq, Repr

/-- The fields of a command word (R70): `OPC = w[3:0]`, `RSV = w[31:4]`. -/
def fieldsOf (w : Word) : CommandFields := { rsv := w.extractLsb' 4 28, opc := w.extractLsb' 0 4 }

/-- The word made of its fields (R70). -/
def wordOf (f : CommandFields) : Word := f.rsv ++ f.opc

/-- The opcode map of R72, read. -/
def commandOfOpcode (opc : BitVec 4) : Option Instr :=
  match opc.toNat with
  | 0x1 => some .cfgKey
  | 0x2 => some .cfgIv
  | 0x3 => some .cfgDefault
  | 0x4 => some .encrypt
  | 0x5 => some .decrypt
  | 0x6 => some .checksum
  | 0x7 => some .encblk
  | 0x8 => some .decblk
  | _ => none

/-- `decode` of R71. -/
def decode (w : Word) : Decoded :=
  let f := fieldsOf w
  if f.rsv ≠ 0 then .illegal .reservedBits
  else
    match commandOfOpcode f.opc with
    | some i => .command i
    | none => .illegal .reservedOpcode

/-- The opcode map of R72, written. -/
def opcode : Instr → BitVec 4
  | .cfgKey => 0x1#4
  | .cfgIv => 0x2#4
  | .cfgDefault => 0x3#4
  | .encrypt => 0x4#4
  | .decrypt => 0x5#4
  | .checksum => 0x6#4
  | .encblk => 0x7#4
  | .decblk => 0x8#4

/-- The full command word of a command is `zext_32(OPC)` (R72). -/
def encode (i : Instr) : Word := wordOf { rsv := 0, opc := opcode i }

/-- The command the decoder reads from a table row's bits `w` (log 17). The hardware stores a command word as one
32-bit value in `PEND`, so the table's bit numbers are the word's own; every command is exactly one 32-bit word (R75),
so more than 32 bits, or a number that does not fit them, is no command. -/
def decodeTableWord (nbits w : Nat) : Option Instr :=
  if nbits ≤ 32 ∧ w < 0x100000000 then
    match decode (BitVec.ofNat 32 w) with
    | .command i => some i
    | .illegal _ => none
  else none

/-- The byte offset of each register (R20, R78). -/
def Reg.offset : Reg → Nat
  | .cmd => 0x00
  | .status => 0x04
  | .srcAddr => 0x08
  | .srcLen => 0x0C
  | .dstAddr => 0x10
  | .dstLen => 0x14
  | .blkLo => 0x18
  | .blkHi => 0x1C
  | .csum => 0x20
  | .reserved slot => 0x24 + 4 * slot.val

/-- The register at a byte offset; none where the offset is unaligned or beyond the register space (R20, R21). -/
def regAt (offset : Nat) : Option Reg :=
  match offset with
  | 0x00 => some .cmd
  | 0x04 => some .status
  | 0x08 => some .srcAddr
  | 0x0C => some .srcLen
  | 0x10 => some .dstAddr
  | 0x14 => some .dstLen
  | 0x18 => some .blkLo
  | 0x1C => some .blkHi
  | 0x20 => some .csum
  | 0x24 => some (.reserved 0)
  | 0x28 => some (.reserved 1)
  | 0x2C => some (.reserved 2)
  | 0x30 => some (.reserved 3)
  | 0x34 => some (.reserved 4)
  | 0x38 => some (.reserved 5)
  | 0x3C => some (.reserved 6)
  | _ => none

/-- The register a bus access reaches; none where the access has a shape R21 forbids. -/
def accessedReg (width offset : Nat) : Option Reg := if width = 32 then regAt offset else none

end Sys2Proof
end

