-- ==== Sys2Proof/Machine/Data.lean ====
section
/-! DEFINITION. The compound values of the machine: the key, the hidden cursor, round state and accumulator, the fields
of STATUS, the error kinds and address ranges. -/

namespace Sys2Proof.Machine

/-- A 128-bit key as four 32-bit words (R31, R34). -/
structure Key where
  k0 : Word
  k1 : Word
  k2 : Word
  k3 : Word
deriving DecidableEq, Repr

/-- The round state of the block transform (R35). -/
structure RoundState where
  /-- `SUM`, the running accumulator. -/
  sum : Word
  /-- `RND`, the number of rounds done, 0 to 32. -/
  rnd : BitVec 6
  /-- `LOW`, the block word of bytes 0 to 3. -/
  low : Word
  /-- `HIGH`, the block word of bytes 4 to 7. -/
  high : Word
deriving DecidableEq, Repr

/-- The cursor of one ENCRYPT or DECRYPT (R34). -/
structure Cursor where
  /-- `WK`, the working key. -/
  wk : Key
  /-- `CV`, the chaining value. -/
  cv : Block
  /-- `BCNT`, the bytes processed since the last key mutation, 0 to 1024. -/
  bcnt : BitVec 11
deriving DecidableEq, Repr

/-- The hidden state (R34 to R36): no host access observes it and no command reads what an earlier one left in it
(R39; log 4). -/
structure Hidden where
  cursor : Cursor
  round : RoundState
  /-- `ACC`, the checksum accumulator (R36). -/
  acc : Word
deriving DecidableEq, Repr

/-- The fields of STATUS (R23); its other bits read 0. -/
structure Status where
  busy : Bool
  done : Bool
  err : Bool
  errCode : BitVec 3
deriving DecidableEq, Repr

/-- The error kinds (R200). -/
inductive ErrKind where
  | configError
  | formatError
  | integrityError
  | illegalCommand
  | addrError
deriving DecidableEq, Repr

/-- A range of the buffer memory, in unbounded naturals (R15, R58). -/
structure Range where
  base : Nat
  len : Nat
deriving DecidableEq, Repr

end Sys2Proof.Machine
end

