-- ==== Sys2Proof/Machine/Flags.lean ====
section
/-! DEFINITION. Every flag the core has is a field of STATUS (R23). This file says how each event sets them and how the
word the host reads is put together. -/

namespace Sys2Proof.Machine

/-- The error codes (R200). -/
def ErrKind.code : ErrKind → BitVec 3
  | .configError => 1
  | .formatError => 2
  | .integrityError => 3
  | .illegalCommand => 4
  | .addrError => 5

/-- STATUS after reset (R230). -/
def Status.afterReset : Status := { busy := false, done := false, err := false, errCode := 0 }

/-- STATUS after a `CMD` write (R22). -/
def Status.started : Status := { busy := true, done := false, err := false, errCode := 0 }

/-- STATUS after a command that completed without error: `complete_ok` and "Flags written" of the command rules
(R104, R129; log 14). -/
def Status.completed : Status := { busy := false, done := true, err := false, errCode := 0 }

/-- STATUS after a command that completed with an error (R207). -/
def Status.failed (e : ErrKind) : Status := { busy := false, done := true, err := true, errCode := e.code }

/-- The STATUS word the host reads (R23): BUSY bit 0, DONE bit 1, ERR bit 2, ERRCODE bits 6:4, the rest 0. -/
def Status.word (t : Status) : Word :=
  0#25 ++ t.errCode ++ 0#1 ++ BitVec.ofBool t.err ++ BitVec.ofBool t.done ++ BitVec.ofBool t.busy

/-- What R23 says of the fields together: `BUSY = 1` implies the others are 0, `ERR = 1` implies `DONE = 1` and a code
in 1..5, and `ERRCODE` is 0 when `ERR = 0`. -/
abbrev Status.Legal (t : Status) : Prop :=
  (t.busy = true → t.done = false ∧ t.err = false ∧ t.errCode = 0) ∧
  (t.err = true → t.done = true ∧ 1 ≤ t.errCode.toNat ∧ t.errCode.toNat ≤ 5) ∧
  (t.err = false → t.errCode = 0)

end Sys2Proof.Machine
end

