-- ==== Sys2Proof/Machine/Bytes.lean ====
section
/-! DEFINITION. Byte sequences and byte order (R16, R52 to R56): little-endian throughout. -/

namespace Sys2Proof.Machine

/-- The word of four bytes, lowest address first (R52). -/
def word32 (b0 b1 b2 b3 : Byte) : Word := b3 ++ b2 ++ b1 ++ b0

/-- `le32(bs, i)` (R16). An index past the end, which no rule uses, reads 0 (log 18). -/
def le32 (bs : List Byte) (i : Nat) : Word :=
  word32 (bs.getD i 0) (bs.getD (i + 1) 0) (bs.getD (i + 2) 0) (bs.getD (i + 3) 0)

/-- `le64(bs, i) = le32(bs, i+4) ++ le32(bs, i)` (R16). -/
def le64 (bs : List Byte) (i : Nat) : Block := le32 bs (i + 4) ++ le32 bs i

/-- `bytes32(w)` (R16): least significant byte first. -/
def bytes32 (w : Word) : List Byte :=
  [w.extractLsb' 0 8, w.extractLsb' 8 8, w.extractLsb' 16 8, w.extractLsb' 24 8]

/-- The low word of a block: bits 31:0, bytes 0 to 3 (R53). -/
def lowOf (v : Block) : Word := v.extractLsb' 0 32

/-- The high word of a block: bits 63:32, bytes 4 to 7 (R53). -/
def highOf (v : Block) : Word := v.extractLsb' 32 32

/-- `bytes64(v) = bytes32(v[31:0]) || bytes32(v[63:32])` (R16). -/
def bytes64 (v : Block) : List Byte := bytes32 (lowOf v) ++ bytes32 (highOf v)

/-- `zeros(n)` (R16). -/
def zeros (n : Nat) : List Byte := List.replicate n 0

/-- The 4-byte words of a byte sequence in order, word `i` being `le32(bs, 4*i)` (R56). -/
def wordsOf : List Byte → List Word
  | b0 :: b1 :: b2 :: b3 :: rest => word32 b0 b1 b2 b3 :: wordsOf rest
  | _ => []

/-- The 8-byte blocks of a byte sequence in order, block `n` being `le64(bs, 8*n)` (R53, R127). -/
def blocksOf : List Byte → List Block
  | b0 :: b1 :: b2 :: b3 :: b4 :: b5 :: b6 :: b7 :: rest =>
    (word32 b4 b5 b6 b7 ++ word32 b0 b1 b2 b3) :: blocksOf rest
  | _ => []

/-- The byte sequence of a list of blocks, in order (R127, R128). -/
def bytesOfBlocks (vs : List Block) : List Byte := vs.flatMap bytes64

/-- The key of 16 bytes: `KEY[j] = le32(k, 4*j)` (R54). -/
def keyOfBytes (bs : List Byte) : Key :=
  { k0 := le32 bs 0, k1 := le32 bs 4, k2 := le32 bs 8, k3 := le32 bs 12 }

/-- The 16 bytes of a key, the inverse serialization of R54. -/
def Key.bytes (k : Key) : List Byte := bytes32 k.k0 ++ bytes32 k.k1 ++ bytes32 k.k2 ++ bytes32 k.k3

end Sys2Proof.Machine
end

