-- ==== Sys2Proof/Machine/BlockTransform.lean ====
section
/-! DEFINITION. The block transform and its inverse as pure functions (R100, R101), with the round constant `DELTA` as
an argument (R10). -/

namespace Sys2Proof.Machine

/-- The term a round adds to `low`; `k[0]` and `k[1]` enter here only (R100). -/
def lowTerm (k : Key) (sum high : Word) : Word :=
  ((high <<< 4) + k.k0) ^^^ (high + sum) ^^^ ((high >>> 5) + k.k1)

/-- The term a round adds to `high`; `k[2]` and `k[3]` enter here only (R100). -/
def highTerm (k : Key) (sum low : Word) : Word :=
  ((low <<< 4) + k.k2) ^^^ (low + sum) ^^^ ((low >>> 5) + k.k3)

/-- One encryption round (R100): `sum` first, then `low`, then `high` from the new `low`. -/
def encryptRound (delta : Word) (k : Key) (r : RoundState) : RoundState :=
  let sum := r.sum + delta
  let low := r.low + lowTerm k sum r.high
  let high := r.high + highTerm k sum low
  { sum := sum, rnd := r.rnd + 1, low := low, high := high }

/-- One decryption round (R101): `high` first, then `low` from the restored `high`, then `sum`. -/
def decryptRound (delta : Word) (k : Key) (r : RoundState) : RoundState :=
  let high := r.high - highTerm k r.sum r.low
  let low := r.low - lowTerm k r.sum high
  { sum := r.sum - delta, rnd := r.rnd + 1, low := low, high := high }

/-- `n` rounds of the given kind, one after another. -/
def repeatRound (round : RoundState → RoundState) : Nat → RoundState → RoundState
  | 0, r => r
  | n + 1, r => repeatRound round n (round r)

/-- Before the first encryption round `sum` is 0 (R100). -/
def encryptStart (low high : Word) : RoundState := { sum := 0, rnd := 0, low := low, high := high }

/-- Before the first decryption round `sum` is `DELTA * 32` (R101). -/
def decryptStart (delta low high : Word) : RoundState := { sum := delta * 32, rnd := 0, low := low, high := high }

/-- The round state after exactly 32 encryption rounds (R9, R100). -/
def encryptRounds (delta low high : Word) (k : Key) : RoundState :=
  repeatRound (encryptRound delta k) rounds (encryptStart low high)

/-- The round state after exactly 32 decryption rounds (R9, R101). -/
def decryptRounds (delta low high : Word) (k : Key) : RoundState :=
  repeatRound (decryptRound delta k) rounds (decryptStart delta low high)

/-- `EncryptBlock(low, high, k)` (R100). -/
def encryptBlock (delta low high : Word) (k : Key) : Word × Word :=
  let r := encryptRounds delta low high k
  (r.low, r.high)

/-- `DecryptBlock(low, high, k)` (R101). -/
def decryptBlock (delta low high : Word) (k : Key) : Word × Word :=
  let r := decryptRounds delta low high k
  (r.low, r.high)

end Sys2Proof.Machine
end

