-- ==== Sys2Proof/Machine/StreamEngine.lean ====
section
/-! DEFINITION. The stream engine as pure functions over byte sequences: checksum (R120), framing (R121 to R123), the
key ratchet (R124, R125), chaining (R127, R128, R133). -/

namespace Sys2Proof.Machine

/-- The accumulator after the swap of its 16-bit halves, before the complement (R120). -/
def checksumAcc (buf : List Byte) : Word :=
  let acc := (wordsOf buf).foldl (· + ·) 0
  acc.extractLsb' 0 16 ++ acc.extractLsb' 16 16

/-- `Checksum(buf)` (R120), for lengths that are multiples of 4; no rule applies it to another length (log 18). -/
def checksum (buf : List Byte) : Word := checksumAcc buf ^^^ 0xFFFFFFFF#32

/-- The padded input `q` of R121, before its checksum is appended. -/
def padBody (p : List Byte) : List Byte :=
  let q := p ++ zeros ((4 - p.length % 4) % 4)
  if q.length % 8 = 0 then q ++ zeros 4 else q

/-- `PadFrame(p)` (R121). -/
def padFrame (p : List Byte) : List Byte :=
  let q := padBody p
  q ++ bytes32 (checksum q)

/-- The least multiple of `n` that is `>= x` (R122). -/
def roundUp (n x : Nat) : Nat := (x + (n - 1)) / n * n

/-- `FramedLen(L)` (R122). -/
def framedLen (l : Nat) : Nat := roundUp 8 (roundUp 4 l + 4)

/-- `PadLen(L)` (R122). -/
def padLen (l : Nat) : Nat := framedLen l - 4 - l

/-- The body `UnframeVerify` checks: all but the last 4 bytes (R123). -/
def framedBody (f : List Byte) : List Byte := f.take (f.length - 4)

/-- `UnframeVerify(f)` (R123). Nothing of the padding is checked or stripped (R134). -/
def unframeVerify (f : List Byte) : Except ErrKind (List Byte) :=
  if f.length < 4 then .error .integrityError
  else if checksum (framedBody f) ≠ le32 f (f.length - 4) then .error .integrityError
  else .ok (framedBody f)

/-- `MutateKey(k)` (R124): byte `i` of the key gains `i`, each byte wrapping on its own. -/
def mutateKey (k : Key) : Key :=
  keyOfBytes (List.zipWith (· + ·) k.bytes ((List.range 16).map (BitVec.ofNat 8)))

/-- The check before each block (R125): mutate exactly when the counter has reached 1024. -/
def ratchet (c : Cursor) : Cursor :=
  if c.bcnt.toNat = mutationPeriod then { c with wk := mutateKey c.wk, bcnt := 0 } else c

/-- The fresh cursor of every operation (R126). -/
def Cursor.start (key : Key) (iv : Block) : Cursor := { wk := key, cv := iv, bcnt := 0 }

/-- The hidden state with nothing in it. -/
def Hidden.blank : Hidden :=
  { cursor := { wk := { k0 := 0, k1 := 0, k2 := 0, k3 := 0 }, cv := 0, bcnt := 0 }
    round := { sum := 0, rnd := 0, low := 0, high := 0 }
    acc := 0 }

/-- The hidden state an operation starts from (R126). -/
def Hidden.start (key : Key) (iv : Block) : Hidden := { Hidden.blank with cursor := Cursor.start key iv }

/-- Encryption feeds back the block just produced (R127, R133). -/
def encryptFeedback (_consumed produced : Block) : Block := produced

/-- Decryption feeds back the ciphertext block just consumed (R128, R133). -/
def decryptFeedback (consumed _produced : Block) : Block := consumed

/-- After a block: the chaining value is replaced and 8 bytes are counted (R125). -/
def Cursor.advance (c : Cursor) (feedback : Block) : Cursor := { c with cv := feedback, bcnt := c.bcnt + 8 }

/-- One block of `EncryptStream` (R127). -/
def encryptNext (delta : Word) (h : Hidden) (b : Block) : Hidden × Block :=
  let c := ratchet h.cursor
  let x := b ^^^ c.cv
  let r := encryptRounds delta (lowOf x) (highOf x) c.wk
  let y : Block := r.high ++ r.low
  ({ h with cursor := c.advance (encryptFeedback b y), round := r }, y)

/-- One block of `DecryptStream` (R128). -/
def decryptNext (delta : Word) (h : Hidden) (y : Block) : Hidden × Block :=
  let c := ratchet h.cursor
  let r := decryptRounds delta (lowOf y) (highOf y) c.wk
  let b : Block := (r.high ++ r.low) ^^^ c.cv
  ({ h with cursor := c.advance (decryptFeedback y b), round := r }, b)

/-- The block loop both directions share (R133): blocks in order, each from the hidden state the last one left. -/
def runBlocks (next : Hidden → Block → Hidden × Block) : Hidden → List Block → Hidden × List Block
  | h, [] => (h, [])
  | h, b :: bs =>
    let first := next h b
    let rest := runBlocks next first.1 bs
    (rest.1, first.2 :: rest.2)

/-- The whole block loop of `EncryptStream` over a framed payload (R127). -/
def encryptRun (delta : Word) (f : List Byte) (key : Key) (iv : Block) : Hidden × List Block :=
  runBlocks (encryptNext delta) (Hidden.start key iv) (blocksOf f)

/-- The whole block loop of `DecryptStream` over a ciphertext (R128). -/
def decryptRun (delta : Word) (c : List Byte) (key : Key) (iv : Block) : Hidden × List Block :=
  runBlocks (decryptNext delta) (Hidden.start key iv) (blocksOf c)

/-- `EncryptStream(p, key, iv)` (R127). -/
def encryptStream (delta : Word) (p : List Byte) (key : Key) (iv : Block) : List Byte :=
  bytesOfBlocks (encryptRun delta (padFrame p) key iv).2

/-- The framed payload a ciphertext decrypts to, before it is unframed (R128). -/
def decryptFramed (delta : Word) (c : List Byte) (key : Key) (iv : Block) : List Byte :=
  bytesOfBlocks (decryptRun delta c key iv).2

/-- `DecryptStream(c, key, iv)` (R128). -/
def decryptStream (delta : Word) (c : List Byte) (key : Key) (iv : Block) : Except ErrKind (List Byte) :=
  if c.length = 0 ∨ c.length % 8 ≠ 0 then .error .formatError
  else unframeVerify (decryptFramed delta c key iv)

/-- The hidden state `EncryptStream` leaves: cursor and round state of its last block, accumulator of its checksum
(log 4). -/
def encryptHidden (delta : Word) (p : List Byte) (key : Key) (iv : Block) : Hidden :=
  { (encryptRun delta (padFrame p) key iv).1 with acc := checksumAcc (padBody p) }

/-- The hidden state `DecryptStream` leaves (log 4). -/
def decryptHidden (delta : Word) (c : List Byte) (key : Key) (iv : Block) : Hidden :=
  { (decryptRun delta c key iv).1 with acc := checksumAcc (framedBody (decryptFramed delta c key iv)) }

/-- What R34 and R35 say of the hidden counters: `BCNT` is 0 to 1024, here always a multiple of 8, and `RND` 0 to 32. -/
abbrev Hidden.Legal (h : Hidden) : Prop :=
  h.cursor.bcnt.toNat ≤ mutationPeriod ∧ h.cursor.bcnt.toNat % 8 = 0 ∧ h.round.rnd.toNat ≤ rounds

end Sys2Proof.Machine
end

