-- ==== Sys2Proof/Machine/State.lean ====
section
/-! DEFINITION. The state of the core (`10_state.md`, `20_memory.md` R50), the reasons a step can stop, and the state
after reset (R230, R232). -/

namespace Sys2Proof.Machine

/-- The buffer memory (R50): (address, byte) pairs; a byte that is not listed reads 0 (log 5). -/
abbrev Memory := List Host.Cell

/-- The canonical form of the buffer memory: addresses strictly rising and no byte listed that reads the same
unlisted. Equal memories are then equal lists. -/
abbrev Memory.wf (m : Memory) : Prop := m.Pairwise (fun c d => c.1 < d.1) ∧ ∀ c ∈ m, c.2 ≠ 0

/-- All the state the spec gives the core, the parameters it takes, and the model's own three fields. -/
structure State where
  /-- The OPEN parameters; no step writes them (log 1). -/
  params : Params
  /-- `STATUS` (R23). -/
  status : Status
  /-- `SRC_ADDR` (R24). -/
  srcAddr : Word
  /-- `SRC_LEN` (R25). -/
  srcLen : Word
  /-- `DST_ADDR` (R26). -/
  dstAddr : Word
  /-- `DST_LEN` (R27). -/
  dstLen : Word
  /-- `BLK_LO` (R28). -/
  blkLo : Word
  /-- `BLK_HI` (R28). -/
  blkHi : Word
  /-- `CSUM` (R29). -/
  csum : Word
  /-- `KEY[0..3]` (R31). -/
  key : Key
  /-- `IV` (R32). -/
  iv : Block
  /-- `PEND`, the pending command word (R33). -/
  pend : Word
  /-- The cursor, the round state and `ACC` (R34 to R36; log 4). -/
  hidden : Hidden
  /-- `MEM` (R50). -/
  mem : Memory
  /-- `HFAULT` (R38). -/
  hfault : Bool
  /-- The model's own: the turns still to come, first one next (log 2). -/
  events : List Event
  /-- The model's own: what the host's reads returned, newest first (log 3). -/
  replies : List Reply
  /-- The model's own: how many free values have been drawn (log 7). -/
  draws : Nat
deriving DecidableEq, Repr

/-- Why a step stops. -/
inductive Fault where
  /-- Raised by `step` in a state with `HFAULT = 1`: a host-protocol violation has happened (R21, R235 to R237) and the
  spec gives the run no further meaning (R38). Safe: hardware may go on, the model does not (log 9). -/
  | hostProtocol
  /-- Raised by a host byte access to an address at or beyond `MEM_BYTES`, where R50 has no byte. Safe (log 8). -/
  | noSuchByte (addr : Nat)
deriving DecidableEq, Repr

/-- Why a command has no meaning in the model. -/
inductive Refusal where
  /-- Raised by `exec` for a command that is not modelled yet. Safe. No arm of this model answers so. -/
  | notModelled (mnemonic : String)
deriving DecidableEq, Repr

/-- Power-on: a reset applied to a core whose buffer memory holds the bytes `m` (R232), with the parameters `p`.
`PEND` is unspecified: free value 0 (log 6). -/
def State.powerOn (p : Params) (m : Memory) : State :=
  { params := p
    status := Status.afterReset
    srcAddr := 0
    srcLen := 0
    dstAddr := 0
    dstLen := 0
    blkLo := 0
    blkHi := 0
    csum := 0
    key := keyOfBytes p.defaultKey.toList
    iv := 0
    pend := Config.freeWord 0
    hidden := Hidden.blank
    mem := m
    hfault := false
    events := []
    replies := []
    draws := 1 }

/-- The machine right after reset (R230): the parameters are the constants of `Config`, nothing is listed in memory. -/
def State.reset : State := State.powerOn Config.params []

end Sys2Proof.Machine
end

