-- ==== Sys2Proof/Machine/Ops.lean ====
section
/-! DEFINITION. The shared operations: the memory primitives (R51), free values, the registers, starting a command (R22)
and the two ways a command ends: `complete_ok`, and `raise E`, the core's "trap entry" (R207). There is no return from an
error: the next `CMD` write clears it (R209, R22). -/

namespace Sys2Proof.Machine

/-- The byte at an address. -/
def Memory.read : Memory → Nat → Byte
  | [], _ => 0
  | (b, v) :: m, a => if b = a then v else Memory.read m a

/-- `MemRead(a, n)` (R51). -/
def Memory.readBytes (m : Memory) (a n : Nat) : List Byte := (List.range n).map (fun i => m.read (a + i))

/-- The canonical listing of the bytes `bs` at the addresses from `a` on. -/
def cellsAt (a : Nat) : List Byte → Memory
  | [] => []
  | b :: bs => if b = 0 then cellsAt (a + 1) bs else (a, b) :: cellsAt (a + 1) bs

/-- `MemWrite(a, n, bs)` with `n = len(bs)` (R51): the bytes of `bs` from `a` on, every other byte as before. -/
def Memory.writeBytes (m : Memory) (a : Nat) (bs : List Byte) : Memory :=
  m.filter (fun c => c.1 < a) ++ cellsAt a bs ++ m.filter (fun c => a + bs.length ≤ c.1)

/-- One host byte write (R57). -/
def Memory.write (m : Memory) (a : Nat) (b : Byte) : Memory := m.writeBytes a [b]

/-- `n` free bytes, the first being draw `k` (log 7). -/
def freeBytes (k n : Nat) : List Byte := (List.range n).map (fun i => Config.freeByte (k + i))

/-- The bytes of a range become unspecified (R208, R231). -/
def State.scramble (r : Range) (s : State) : State :=
  { s with mem := s.mem.writeBytes r.base (freeBytes s.draws r.len), draws := s.draws + r.len }

/-- `complete_ok`: the command ends without error (R104, R129; log 14). -/
def State.completeOk (s : State) : State := { s with status := Status.completed }

/-- `raise E`: the command ends with an error, and nothing but STATUS and `DST_LEN` changes (R207). -/
def State.raise (e : ErrKind) (s : State) : State := { s with status := Status.failed e, dstLen := 0 }

/-- A host write of `v` to `CMD` while idle starts a command (R22). -/
def State.startCommand (v : Word) (s : State) : State := { s with pend := v, status := Status.started }

/-- A host-protocol violation sets `HFAULT` and nothing else (R38, R210; log 9). -/
def State.markFault (s : State) : State := { s with hfault := true }

/-- A host read returns a value and changes nothing else (R67; log 3). -/
def State.reply (r : Reply) (s : State) : State := { s with replies := r :: s.replies }

/-- The value a host read of a register gives while the core is idle (R22 to R30). -/
def State.readReg (s : State) : Reg → Word
  | .cmd => 0
  | .status => s.status.word
  | .srcAddr => s.srcAddr
  | .srcLen => s.srcLen
  | .dstAddr => s.dstAddr
  | .dstLen => s.dstLen
  | .blkLo => s.blkLo
  | .blkHi => s.blkHi
  | .csum => s.csum
  | .reserved _ => 0

/-- What a host write of `v` to a register does while the core is idle (R22 to R30): read-only registers and reserved
offsets ignore it. -/
def State.writeReg (v : Word) (s : State) : Reg → State
  | .cmd => s.startCommand v
  | .status => s
  | .srcAddr => { s with srcAddr := v }
  | .srcLen => { s with srcLen := v }
  | .dstAddr => { s with dstAddr := v }
  | .dstLen => s
  | .blkLo => { s with blkLo := v }
  | .blkHi => { s with blkHi := v }
  | .csum => s
  | .reserved _ => s

end Sys2Proof.Machine
end

