-- ==== Sys2Proof/Machine/Operands.lean ====
section
/-! DEFINITION. Where a command's operands come from (R74): its input and output ranges (R58, R60, R205), when a range
is valid (R58), when two overlap (R59), and the active ranges of the pending command (R237). -/

namespace Sys2Proof.Machine

/-- An address lies in a range. -/
abbrev Range.Holds (r : Range) (x : Nat) : Prop := r.base ≤ x ∧ x < r.base + r.len

/-- `valid(a, n)` (R58). -/
abbrev Range.Valid (r : Range) (memBytes : Nat) : Prop := r.len = 0 ∨ r.base + r.len ≤ memBytes

/-- `overlap(a, n, d, m)` (R59). -/
abbrev Range.Overlaps (r q : Range) : Prop :=
  r.len ≠ 0 ∧ q.len ≠ 0 ∧ r.base < q.base + q.len ∧ q.base < r.base + r.len

/-- A range clipped to the buffer memory (R231). -/
def Range.clip (r : Range) (memBytes : Nat) : Range := { r with len := min r.len (memBytes - r.base) }

/-- No range at all. -/
def Range.empty : Range := { base := 0, len := 0 }

/-- The input range of a command (R58, R60, R205). CFG_KEY and CFG_IV read 16 and 8 bytes whatever `SRC_LEN` holds
(log 11). -/
def inputRange (i : Instr) (s : State) : Range :=
  match i with
  | .cfgKey => { base := s.srcAddr.toNat, len := keyBytes }
  | .cfgIv => { base := s.srcAddr.toNat, len := ivBytes }
  | .cfgDefault => Range.empty
  | .encrypt => { base := s.srcAddr.toNat, len := s.srcLen.toNat }
  | .decrypt => { base := s.srcAddr.toNat, len := s.srcLen.toNat }
  | .checksum => { base := s.srcAddr.toNat, len := s.srcLen.toNat }
  | .encblk => Range.empty
  | .decblk => Range.empty

/-- The output range of a command (R58): `FramedLen(SRC_LEN)` bytes for ENCRYPT, `SRC_LEN - 4` for DECRYPT, which is
empty when `SRC_LEN < 4` (R231, R237). -/
def outputRange (i : Instr) (s : State) : Range :=
  match i with
  | .encrypt => { base := s.dstAddr.toNat, len := framedLen s.srcLen.toNat }
  | .decrypt => { base := s.dstAddr.toNat, len := s.srcLen.toNat - 4 }
  | .cfgKey => Range.empty
  | .cfgIv => Range.empty
  | .cfgDefault => Range.empty
  | .checksum => Range.empty
  | .encblk => Range.empty
  | .decblk => Range.empty

/-- The input range of the pending command; empty for an illegal word (R237). -/
def pendingInput (s : State) : Range :=
  match decode s.pend with
  | .command i => inputRange i s
  | .illegal _ => Range.empty

/-- The output range of the pending command; empty for an illegal word (R231, R237). -/
def pendingOutput (s : State) : Range :=
  match decode s.pend with
  | .command i => outputRange i s
  | .illegal _ => Range.empty

/-- ENCRYPT and DECRYPT can use these ranges: both valid, and disjoint (R58, R59, R205). -/
abbrev rangesUsable (memBytes : Nat) (src dst : Range) : Prop :=
  src.Valid memBytes ∧ dst.Valid memBytes ∧ ¬ src.Overlaps dst

/-- The bytes of a range (R51). -/
def State.bytesIn (s : State) (r : Range) : List Byte := s.mem.readBytes r.base r.len

end Sys2Proof.Machine
end

