-- ==== Sys2Proof/Machine/BlockCommands.lean ====
section
/-! DEFINITION. ENCBLK (R104) and DECBLK (R105): the block transform on `BLK_LO` and `BLK_HI` under `KEY`. -/

namespace Sys2Proof.Machine

/-- ENCBLK (R104). -/
def execEncblk (s : State) : Host.Outcome State Fault Refusal :=
  let out := encryptBlock s.params.delta s.blkLo s.blkHi s.key
  .next (State.completeOk
    { s with
      blkLo := out.1
      blkHi := out.2
      hidden := { s.hidden with round := encryptRounds s.params.delta s.blkLo s.blkHi s.key } })

/-- DECBLK (R105). -/
def execDecblk (s : State) : Host.Outcome State Fault Refusal :=
  let out := decryptBlock s.params.delta s.blkLo s.blkHi s.key
  .next (State.completeOk
    { s with
      blkLo := out.1
      blkHi := out.2
      hidden := { s.hidden with round := decryptRounds s.params.delta s.blkLo s.blkHi s.key } })

end Sys2Proof.Machine
end

