-- ==== Sys2Proof/Machine/ConfigCommands.lean ====
section
/-! DEFINITION. CFG_KEY (R170), CFG_IV (R171) and CFG_DEFAULT (R172), with the check order of R206. -/

namespace Sys2Proof.Machine

/-- CFG_KEY (R170). -/
def execCfgKey (s : State) : Host.Outcome State Fault Refusal :=
  let src := inputRange .cfgKey s
  .next (
    if s.srcLen.toNat ≠ keyBytes then s.raise .configError
    else if ¬ src.Valid s.params.memBytes then s.raise .addrError
    else State.completeOk { s with key := keyOfBytes (s.bytesIn src) })

/-- CFG_IV (R171). -/
def execCfgIv (s : State) : Host.Outcome State Fault Refusal :=
  let src := inputRange .cfgIv s
  .next (
    if s.srcLen.toNat ≠ ivBytes then s.raise .configError
    else if ¬ src.Valid s.params.memBytes then s.raise .addrError
    else State.completeOk { s with iv := le64 (s.bytesIn src) 0 })

/-- CFG_DEFAULT (R172). -/
def execCfgDefault (s : State) : Host.Outcome State Fault Refusal :=
  .next (State.completeOk { s with key := keyOfBytes s.params.defaultKey.toList, iv := 0 })

end Sys2Proof.Machine
end

