-- ==== Sys2Proof/Machine/StreamCommands.lean ====
section
/-! DEFINITION. CHECKSUM (R129), ENCRYPT (R130) and DECRYPT (R131), with the check order of R206. -/

namespace Sys2Proof.Machine

/-- CHECKSUM (R129). -/
def execChecksum (s : State) : Host.Outcome State Fault Refusal :=
  let src := inputRange .checksum s
  .next (
    if s.srcLen.toNat % 4 ≠ 0 then s.raise .formatError
    else if ¬ src.Valid s.params.memBytes then s.raise .addrError
    else
      let buf := s.bytesIn src
      State.completeOk { s with csum := checksum buf, hidden := { s.hidden with acc := checksumAcc buf } })

/-- ENCRYPT (R130). -/
def execEncrypt (s : State) : Host.Outcome State Fault Refusal :=
  let src := inputRange .encrypt s
  let dst := outputRange .encrypt s
  .next (
    if ¬ rangesUsable s.params.memBytes src dst then s.raise .addrError
    else
      let p := s.bytesIn src
      State.completeOk
        { s with
          mem := s.mem.writeBytes dst.base (encryptStream s.params.delta p s.key s.iv)
          dstLen := BitVec.ofNat 32 dst.len
          hidden := encryptHidden s.params.delta p s.key s.iv })

/-- DECRYPT (R131). After the length check `DecryptStream` fails with IntegrityError alone; the output range is then
unspecified (R208). -/
def execDecrypt (s : State) : Host.Outcome State Fault Refusal :=
  let src := inputRange .decrypt s
  let dst := outputRange .decrypt s
  .next (
    if s.srcLen.toNat = 0 ∨ s.srcLen.toNat % 8 ≠ 0 then s.raise .formatError
    else if ¬ rangesUsable s.params.memBytes src dst then s.raise .addrError
    else
      let c := s.bytesIn src
      let after := { s with hidden := decryptHidden s.params.delta c s.key s.iv }
      match decryptStream s.params.delta c s.key s.iv with
      | .ok p =>
        State.completeOk
          { after with mem := s.mem.writeBytes dst.base p, dstLen := BitVec.ofNat 32 dst.len }
      | .error e => (after.scramble dst).raise e)

end Sys2Proof.Machine
end

