-- ==== Sys2Proof/Machine/Dispatch.lean ====
section
/-! DEFINITION. One arm per command: the engine's completion of that command (R239). -/

namespace Sys2Proof.Machine

def exec (i : Instr) (s : State) : Host.Outcome State Fault Refusal :=
  match i with
  | .cfgKey => Sys2Proof.Machine.execCfgKey s
  | .cfgIv => Sys2Proof.Machine.execCfgIv s
  | .cfgDefault => Sys2Proof.Machine.execCfgDefault s
  | .encrypt => Sys2Proof.Machine.execEncrypt s
  | .decrypt => Sys2Proof.Machine.execDecrypt s
  | .checksum => Sys2Proof.Machine.execChecksum s
  | .encblk => Sys2Proof.Machine.execEncblk s
  | .decblk => Sys2Proof.Machine.execDecblk s

end Sys2Proof.Machine
end

