-- ==== Sys2Proof/Machine/Engine.lean ====
section
/-! DEFINITION. The engine's completion step (R239): enabled exactly when `BUSY = 1`, it decodes `PEND` and performs the
whole command, or IllegalCommand, as one transition. -/

namespace Sys2Proof.Machine

/-- A word that decodes to no command completes with IllegalCommand and does nothing else (R73, R204). -/
def completeIllegal (s : State) : Host.Outcome State Fault Refusal := .next (s.raise .illegalCommand)

/-- Decode `PEND` and perform its command (R71, R239). -/
def completePending (s : State) : Host.Outcome State Fault Refusal :=
  match decode s.pend with
  | .command i => exec i s
  | .illegal _ => completeIllegal s

/-- The engine's turn: with no command pending it is not enabled and nothing happens (R217, R239; log 15). -/
def engineStep (s : State) : Host.Outcome State Fault Refusal :=
  if s.status.busy then completePending s else .next s

end Sys2Proof.Machine
end

