-- ==== Sys2Proof/Machine/HostPort.lean ====
section
/-! DEFINITION. What the host can do to the core, idle and busy (the table of R242): register accesses (R21, R22 to R30,
R236, R238), memory accesses (R237) and reset (R230, R231). -/

namespace Sys2Proof.Machine

/-- The registers a real engine may be updating while busy (R238). -/
def isResultReg : Reg → Bool
  | .dstLen => true
  | .csum => true
  | .blkLo => true
  | .blkHi => true
  | .cmd => false
  | .status => false
  | .srcAddr => false
  | .srcLen => false
  | .dstAddr => false
  | .reserved _ => false

/-- A host register read (R21, R67, R238): a free value from a result register while busy, else the true value. -/
def hostRegRead (width offset : Nat) (s : State) : Host.Outcome State Fault Refusal :=
  match accessedReg width offset with
  | none => .next s.markFault
  | some r =>
    if s.status.busy ∧ isResultReg r then
      .next { s.reply (.word (Config.freeWord s.draws)) with draws := s.draws + 1 }
    else .next (s.reply (.word (s.readReg r)))

/-- A host register write (R21, R22 to R30, R235, R236). -/
def hostRegWrite (width offset : Nat) (v : Word) (s : State) : Host.Outcome State Fault Refusal :=
  match accessedReg width offset with
  | none => .next s.markFault
  | some r => .next (if s.status.busy then s.markFault else s.writeReg v r)

/-- A host byte read (R237): a free value in the output range of the pending command (log 12), else the true value. -/
def hostMemRead (addr : Nat) (s : State) : Host.Outcome State Fault Refusal :=
  if s.params.memBytes ≤ addr then .fault (.noSuchByte addr)
  else if s.status.busy ∧ (pendingOutput s).Holds addr then
    .next { s.reply (.byte (Config.freeByte s.draws)) with draws := s.draws + 1 }
  else .next (s.reply (.byte (s.mem.read addr)))

/-- A host byte write (R237): a violation in an active range of the pending command, else it stores. -/
def hostMemWrite (addr : Nat) (b : Byte) (s : State) : Host.Outcome State Fault Refusal :=
  if s.params.memBytes ≤ addr then .fault (.noSuchByte addr)
  else if s.status.busy ∧ ((pendingInput s).Holds addr ∨ (pendingOutput s).Holds addr) then .next s.markFault
  else .next { s with mem := s.mem.write addr b }

/-- The range an asserted reset leaves unspecified: the output range of the command it aborts, clipped to the buffer
memory; nothing when idle (R231; log 13). -/
def abortedRange (s : State) : Range :=
  if s.status.busy then (pendingOutput s).clip s.params.memBytes else Range.empty

/-- The registers and internal state of the core's reset domain at their reset values (R230). `PEND` is unspecified: a
free value (log 6). Memory, `HFAULT` and the model's own fields are not in the reset domain. -/
def State.resetDomain (s : State) : State :=
  { s with
    status := Status.afterReset
    srcAddr := 0
    srcLen := 0
    dstAddr := 0
    dstLen := 0
    blkLo := 0
    blkHi := 0
    csum := 0
    key := keyOfBytes s.params.defaultKey.toList
    iv := 0
    pend := Config.freeWord s.draws
    hidden := Hidden.blank
    draws := s.draws + 1 }

/-- Asserting reset (R230, R231). -/
def State.assertReset (s : State) : State := State.resetDomain (s.scramble (abortedRange s))

/-- One host operation (R76, R242). -/
def hostStep (op : HostOp) (s : State) : Host.Outcome State Fault Refusal :=
  match op with
  | .regWrite width offset v => hostRegWrite width offset v s
  | .regRead width offset => hostRegRead width offset s
  | .memWrite addr b => hostMemWrite addr b s
  | .memRead addr => hostMemRead addr s
  | .reset => .next s.assertReset

end Sys2Proof.Machine
end

