-- ==== Sys2Proof/Machine/Step.lean ====
section
/-! DEFINITION. One step of the machine: one turn of the agent that `events` names (R7, R239; log 2). -/

namespace Sys2Proof.Machine

/-- With `HFAULT = 1` the run has no further meaning (R38; log 9). Otherwise the next event is taken; when none is left
the engine has its turn, so that a pending command completes (R239). -/
def step (s : State) : Host.Outcome State Fault Refusal :=
  if s.hfault then .fault .hostProtocol
  else
    match s.events with
    | [] => engineStep s
    | .engine :: rest => engineStep { s with events := rest }
    | .host op :: rest => hostStep op { s with events := rest }

/-- The command word `w` stored where the engine reads its next command, in `PEND`, as a `CMD` write does (R22), with the
engine's turn next and no violation on record, so that the very next step completes it (log 16). -/
def State.withFetchWord (s : State) (_nbits w : Nat) : State :=
  { s.startCommand (BitVec.ofNat 32 w) with hfault := false, events := .engine :: s.events }

end Sys2Proof.Machine
end

