-- ==== Sys2Proof/Machine/HostProgram.lean ====
section
/-! DEFINITION. The host notation (R76) and its pseudo-operations (R77), as the events they stand for. -/

namespace Sys2Proof.Machine

/-- `wr NAME, v` (R76). -/
def HostProgram.wr (r : Reg) (v : Word) : List Event := [.host (.regWrite 32 r.offset v)]

/-- `rd NAME` (R76). -/
def HostProgram.rd (r : Reg) : List Event := [.host (.regRead 32 r.offset)]

/-- `mw a, b0 b1 ...` (R76): byte writes in order of increasing address. -/
def HostProgram.mw (a : Nat) : List Byte → List Event
  | [] => []
  | b :: bs => .host (.memWrite a b) :: HostProgram.mw (a + 1) bs

/-- `mr a, n` (R76): byte reads in order of increasing address. -/
def HostProgram.mr (a n : Nat) : List Event := (List.range n).map (fun i => .host (.memRead (a + i)))

/-- `cmd M` (R77). -/
def HostProgram.cmd (i : Instr) : List Event := HostProgram.wr .cmd (encode i)

/-- `wait` (R77), in the interleaving where the engine completes after the `polls`-th read of STATUS: the loop's reads
are `polls` busy ones and the last one. -/
def HostProgram.wait (polls : Nat) : List Event :=
  List.replicate polls (.host (.regRead 32 Reg.status.offset)) ++ .engine :: HostProgram.rd .status

/-- `run M` (R77), in that interleaving. -/
def HostProgram.run (i : Instr) (polls : Nat) : List Event := HostProgram.cmd i ++ HostProgram.wait polls

end Sys2Proof.Machine
end

