-- ==== Sys2Proof/Safety.lean ====
section
/-! DEFINITION. What counts as a safe run, in the terms claims use: the observation at the end of a run (R243), the
invariant of the machine, and the state apart from what no host can see. -/

namespace Sys2Proof.Machine

/-- What a run leaves to be observed (R243). -/
structure Observation where
  status : Word
  srcAddr : Word
  srcLen : Word
  dstAddr : Word
  dstLen : Word
  blkLo : Word
  blkHi : Word
  csum : Word
  key : Key
  iv : Block
  mem : Memory
deriving DecidableEq, Repr

/-- A run has ended when the host has performed its last operation and `BUSY = 0` (R243). Engine turns that are still
listed do not keep it going: with `BUSY = 0` they do nothing (R239). -/
abbrev State.Ended (s : State) : Prop := (∀ e ∈ s.events, e = .engine) ∧ s.status.busy = false

/-- The observation of an ended run; a run with `HFAULT = 1` has none (R243). -/
def State.observe (s : State) : Option Observation :=
  if s.Ended ∧ s.hfault = false then
    some
      { status := s.status.word
        srcAddr := s.srcAddr
        srcLen := s.srcLen
        dstAddr := s.dstAddr
        dstLen := s.dstLen
        blkLo := s.blkLo
        blkHi := s.blkHi
        csum := s.csum
        key := s.key
        iv := s.iv
        mem := s.mem }
  else none

/-- The state apart from the hidden state of R34 to R36, whose value between commands no rule gives (log 4). -/
def State.withoutHidden (s : State) : State := { s with hidden := Hidden.blank }

/-- The invariant: legal parameters (R14), memory in its canonical form and inside `MEM_BYTES` (R50), the STATUS fields
as R23 relates them, the hidden counters in their ranges (R34, R35). -/
structure State.Inv (s : State) : Prop where
  params_wf : s.params.WellFormed
  mem_wf : s.mem.wf
  mem_inside : ∀ c ∈ s.mem, c.1 < s.params.memBytes
  status_legal : s.status.Legal
  hidden_legal : s.hidden.Legal

end Sys2Proof.Machine
end

