-- ==== Sys2Proof/Certificates/Slice0/Obligations.lean ====
section
/-! DEFINITION. The statements for the provers. Each holds for every value of the parameters (log 1), because a state
carries them, and for every value of the free values (log 7), because the constants of `Config` have no body. Equalities
of states go through `State.withoutHidden`: no statement rests on what a command leaves in the hidden state (log 4). -/

open Sys2Proof Sys2Proof.Machine

/-! ## Encoding -/

/-- The rows of the opcode map of R72, written out as words, and the illegal words of vector V-X. -/
def Obligations.OpcodeMapDecodes : Prop :=
  decode 0x00000001#32 = .command .cfgKey ∧ decode 0x00000002#32 = .command .cfgIv ∧
  decode 0x00000003#32 = .command .cfgDefault ∧ decode 0x00000004#32 = .command .encrypt ∧
  decode 0x00000005#32 = .command .decrypt ∧ decode 0x00000006#32 = .command .checksum ∧
  decode 0x00000007#32 = .command .encblk ∧ decode 0x00000008#32 = .command .decblk ∧
  ∀ w ∈ [0x0#32, 0x9#32, 0xA#32, 0xB#32, 0xC#32, 0xD#32, 0xE#32, 0xF#32, 0x10#32, 0x14#32, 0x80000004#32,
    0xFFFFFFFF#32], ∃ why, decode w = .illegal why

/-- R71: a word is a command exactly when it is that command's word, which `encode` gives, and is illegal exactly when
`w[31:4] != 0` or `w[3:0]` is not one of 1 to 8. Every word is one or the other. -/
def Obligations.DecodeNamesExactlyTheEncodedCommand : Prop :=
  ∀ w : Word,
    (∀ i : Instr, decode w = .command i ↔ w = encode i) ∧
    (decode w = .command .cfgKey ↔ w = 0x1#32) ∧ (decode w = .command .cfgIv ↔ w = 0x2#32) ∧
    (decode w = .command .cfgDefault ↔ w = 0x3#32) ∧ (decode w = .command .encrypt ↔ w = 0x4#32) ∧
    (decode w = .command .decrypt ↔ w = 0x5#32) ∧ (decode w = .command .checksum ↔ w = 0x6#32) ∧
    (decode w = .command .encblk ↔ w = 0x7#32) ∧ (decode w = .command .decblk ↔ w = 0x8#32) ∧
    ((∃ why, decode w = .illegal why) ↔ (w.toNat / 16 ≠ 0 ∨ w.toNat % 16 = 0 ∨ 9 ≤ w.toNat % 16))

/-- R78: the register offsets, and that an offset names a register exactly when it is that register's. -/
def Obligations.RegisterOffsets : Prop :=
  Reg.cmd.offset = 0x00 ∧ Reg.status.offset = 0x04 ∧ Reg.srcAddr.offset = 0x08 ∧ Reg.srcLen.offset = 0x0C ∧
  Reg.dstAddr.offset = 0x10 ∧ Reg.dstLen.offset = 0x14 ∧ Reg.blkLo.offset = 0x18 ∧ Reg.blkHi.offset = 0x1C ∧
  Reg.csum.offset = 0x20 ∧
  (∀ (offset : Nat) (r : Reg), regAt offset = some r ↔ r.offset = offset) ∧
  ∀ offset : Nat, (∃ r, regAt offset = some r) ↔ (offset % 4 = 0 ∧ offset < 0x40)

/-! ## The step -/

/-- When the pending word decodes to a command, the engine's turn is `exec` of that command: at once when no event is
left, and at an `engine` event (R239; the schedule is the model's own, log 2). -/
def Obligations.EngineTurnRunsTheDecodedCommand : Prop :=
  ∀ (s : State) (i : Instr), s.hfault = false → s.status.busy = true → decode s.pend = .command i →
    (s.events = [] → step s = exec i s) ∧
    (∀ rest, s.events = .engine :: rest → step s = exec i { s with events := rest })

/-- A host event is that host operation, whatever the core is doing (R7, R239; the schedule is the model's own, log 2). -/
def Obligations.HostEventRunsTheHostOperation : Prop :=
  ∀ (s : State) (op : HostOp) (rest : List Event), s.hfault = false → s.events = .host op :: rest →
    step s = hostStep op { s with events := rest }

/-- The engine is enabled only when `BUSY = 1` and `HFAULT = 0` (R239): idle, its turn changes nothing (log 15); with
`HFAULT = 1` the run has no meaning (R38; log 9). -/
def Obligations.EngineDisabledWhenIdleOrFaulted : Prop :=
  ∀ s : State,
    (s.hfault = true → step s = .fault .hostProtocol) ∧
    (s.hfault = false → s.status.busy = false → s.events = [] → step s = .next s) ∧
    (∀ rest, s.hfault = false → s.status.busy = false → s.events = .engine :: rest →
      step s = .next { s with events := rest })

/-- R239: every pending word, legal or not, completes in one engine turn with `BUSY = 0` and `DONE = 1`, and with an
error exactly when the code is not 0, the code then being 1 to 5 (R200). The engine has its turn when no event is left and
at an `engine` event (the model's own schedule, log 2). -/
def Obligations.EveryPendingWordCompletes : Prop :=
  ∀ s : State, s.hfault = false → s.status.busy = true → (s.events = [] ∨ ∃ rest, s.events = .engine :: rest) →
    ∃ t, step s = .next t ∧ t.status.busy = false ∧ t.status.done = true ∧
      (t.status.err = true ↔ t.status.errCode ≠ 0) ∧ t.status.errCode.toNat ≤ 5

/-- R73: an illegal word completes with IllegalCommand and changes nothing else but `DST_LEN <- 0`, at each of the two
turns the engine can have: with no event left, and at an `engine` event, which is taken. -/
def Obligations.IllegalWordsOnlyReport : Prop :=
  ∀ s : State, s.hfault = false → s.status.busy = true →
    (s.pend.toNat / 16 ≠ 0 ∨ s.pend.toNat % 16 = 0 ∨ 9 ≤ s.pend.toNat % 16) →
    (s.events = [] → step s = .next { s with status := ⟨false, true, true, 4⟩, dstLen := 0 }) ∧
    (∀ rest, s.events = .engine :: rest →
      step s = .next { s with status := ⟨false, true, true, 4⟩, dstLen := 0, events := rest })

/-! ## The block transform -/

/-- R100, R101: the two transforms as the rules write them, line by line, on the triple of `sum`, `low` and `high`:
exactly 32 rounds from `sum = 0` forwards, exactly 32 rounds from `sum = DELTA * 32` backwards. -/
def Obligations.BlockTransformsRunTheirWrittenRounds : Prop :=
  ∀ (delta low high : Word) (k : Key),
    let forward := fun (x : Word × Word × Word) =>
      let sum := x.1 + delta
      let lo := x.2.1 + (((x.2.2 <<< 4) + k.k0) ^^^ (x.2.2 + sum) ^^^ ((x.2.2 >>> 5) + k.k1))
      let hi := x.2.2 + (((lo <<< 4) + k.k2) ^^^ (lo + sum) ^^^ ((lo >>> 5) + k.k3))
      (sum, lo, hi)
    let backward := fun (x : Word × Word × Word) =>
      let hi := x.2.2 - (((x.2.1 <<< 4) + k.k2) ^^^ (x.2.1 + x.1) ^^^ ((x.2.1 >>> 5) + k.k3))
      let lo := x.2.1 - (((hi <<< 4) + k.k0) ^^^ (hi + x.1) ^^^ ((hi >>> 5) + k.k1))
      (x.1 - delta, lo, hi)
    encryptBlock delta low high k = (forward^[32] (0, low, high)).2 ∧
    decryptBlock delta low high k = (backward^[32] (delta * 32, low, high)).2

/-- The inverse property, for every `DELTA`, block and key. The spec marks it as its own inference from R100 and R101. -/
def Obligations.BlockTransformsAreInverse : Prop :=
  ∀ (delta low high : Word) (k : Key),
    (let c := encryptBlock delta low high k; decryptBlock delta c.1 c.2 k = (low, high)) ∧
    (let p := decryptBlock delta low high k; encryptBlock delta p.1 p.2 k = (low, high))

/-- The sum schedule, which the spec marks as its own inference from R100 and R101: encryption round `r` uses
`r * DELTA`, decryption round `r` uses `(33 - r) * DELTA` and gives back the words before encryption round `33 - r`, and
the last decryption round leaves `sum = 0`. -/
def Obligations.SumSchedule : Prop :=
  ∀ (delta low high : Word) (k : Key) (r : Nat), 1 ≤ r → r ≤ 32 →
    let before := repeatRound (encryptRound delta k) (32 - r) (encryptStart low high)
    let after := encryptRound delta k before
    (repeatRound (encryptRound delta k) r (encryptStart low high)).sum = BitVec.ofNat 32 r * delta ∧
    (repeatRound (decryptRound delta k) (r - 1) (decryptStart delta low high)).sum = BitVec.ofNat 32 (33 - r) * delta ∧
    after.sum = BitVec.ofNat 32 (33 - r) * delta ∧
    (decryptRound delta k after).low = before.low ∧ (decryptRound delta k after).high = before.high ∧
    (decryptRounds delta low high k).sum = 0

/-- R104: ENCBLK. -/
def Obligations.EncblkCommand : Prop :=
  encode .encblk = 0x00000007#32 ∧ (∀ w : Word, decode w = .command .encblk ↔ w = 0x00000007#32) ∧
  ∀ s : State, ∃ t, exec .encblk s = .next t ∧
    t.withoutHidden =
      State.withoutHidden
        { s with
          blkLo := (encryptBlock s.params.delta s.blkLo s.blkHi s.key).1
          blkHi := (encryptBlock s.params.delta s.blkLo s.blkHi s.key).2
          status := ⟨false, true, false, 0⟩ }

/-- R105: DECBLK. -/
def Obligations.DecblkCommand : Prop :=
  encode .decblk = 0x00000008#32 ∧
  ∀ s : State, ∃ t, exec .decblk s = .next t ∧
    t.withoutHidden =
      State.withoutHidden
        { s with
          blkLo := (decryptBlock s.params.delta s.blkLo s.blkHi s.key).1
          blkHi := (decryptBlock s.params.delta s.blkLo s.blkHi s.key).2
          status := ⟨false, true, false, 0⟩ }

/-- ENCBLK followed by DECBLK restores both `BLK` words, and nothing else has changed but STATUS (corner cases of R105). -/
def Obligations.EncblkThenDecblkRestoresTheBlock : Prop :=
  ∀ s : State, ∃ t u, exec .encblk s = .next t ∧ exec .decblk t = .next u ∧
    u.withoutHidden = State.withoutHidden { s with status := ⟨false, true, false, 0⟩ }

/-! ## Byte order, checksum, framing -/

/-- R16, R52 to R54: little-endian throughout. The value of a word from its four bytes and each byte of a word; a block
with its word of bytes 4 to 7 above the one of bytes 0 to 3, `low` being bits 31:0; a key's words from its bytes; reading
undoes writing; and a 64-bit XOR is the bytewise XOR. -/
def Obligations.ByteOrder : Prop :=
  (∀ (bs : List Byte) (i : Nat), i + 4 ≤ bs.length →
    (le32 bs i).toNat =
      (bs.getD i 0).toNat + 256 * (bs.getD (i + 1) 0).toNat + 65536 * (bs.getD (i + 2) 0).toNat +
        16777216 * (bs.getD (i + 3) 0).toNat) ∧
  (∀ w : Word,
    (bytes32 w).map BitVec.toNat =
      [w.toNat % 256, w.toNat / 256 % 256, w.toNat / 65536 % 256, w.toNat / 16777216]) ∧
  (∀ (bs : List Byte) (i : Nat), i + 8 ≤ bs.length →
    le64 bs i = (le32 bs (i + 4) ++ le32 bs i : Block) ∧
    (le64 bs i).toNat = (le32 bs i).toNat + 4294967296 * (le32 bs (i + 4)).toNat) ∧
  (∀ v : Block,
    (lowOf v).toNat = v.toNat % 4294967296 ∧ (highOf v).toNat = v.toNat / 4294967296 ∧
    bytes64 v = bytes32 (lowOf v) ++ bytes32 (highOf v)) ∧
  (∀ bs : List Byte, bs.length = 16 → keyOfBytes bs = ⟨le32 bs 0, le32 bs 4, le32 bs 8, le32 bs 12⟩) ∧
  (∀ w : Word, le32 (bytes32 w) 0 = w) ∧
  (∀ v : Block, le64 (bytes64 v) 0 = v) ∧
  (∀ bs : List Byte, bs.length = 16 → (keyOfBytes bs).bytes = bs) ∧
  (∀ v w : Block, bytes64 (v ^^^ w) = List.zipWith (· ^^^ ·) (bytes64 v) (bytes64 w))

/-- R120: the checksum as the rule's loop over word indices. -/
def Obligations.ChecksumIsTheIndexedLoop : Prop :=
  checksum [] = 0xFFFFFFFF#32 ∧
  ∀ buf : List Byte, buf.length % 4 = 0 →
    let acc := (List.range (buf.length / 4)).foldl (fun a i => a + le32 buf (4 * i)) (0 : Word)
    checksum buf = (acc.extractLsb' 0 16 ++ acc.extractLsb' 16 16 : Word) ^^^ 0xFFFFFFFF#32

/-- The table of `FramedLen` and `PadLen`, which the spec marks as its own inference from R121. -/
def Obligations.FramedLengthTable : Prop :=
  ∀ l : Nat,
    framedLen l = l + [8, 7, 6, 5, 4, 11, 10, 9].getD (l % 8) 0 ∧
    padLen l = [4, 3, 2, 1, 0, 7, 6, 5].getD (l % 8) 0 ∧
    framedLen l % 8 = 0 ∧ 8 ≤ framedLen l

/-- R121: the framed payload is the input, fewer than 8 zero bytes that bring the length to 4 modulo 8, and the checksum
of that padded buffer, little-endian. The zero bytes are counted by `PadLen`, the whole by `FramedLen`. -/
def Obligations.PadFramePadsAndAppendsTheChecksum : Prop :=
  ∀ p : List Byte,
    let q := p ++ zeros (padLen p.length)
    padFrame p = q ++ bytes32 (checksum q) ∧ padLen p.length < 8 ∧ q.length % 8 = 4 ∧
    (padFrame p).length = framedLen p.length ∧ (padFrame p).length % 8 = 0

/-- R123: fewer than 4 bytes fail; else the last 4 bytes are the claimed checksum of the rest, which is returned whole
when they match. -/
def Obligations.UnframeVerifyComparesTheChecksum : Prop :=
  (∀ f : List Byte, f.length < 4 → unframeVerify f = .error .integrityError) ∧
  ∀ body tail : List Byte, tail.length = 4 →
    unframeVerify (body ++ tail) = if checksum body ≠ le32 tail 0 then .error .integrityError else .ok body

/-! ## Key ratchet and chaining -/

/-- R124: byte `i` of the mutated key is byte `i` of the key plus `i`, modulo 256, with no carry between bytes. -/
def Obligations.MutateKeyAddsThePositionToEachByte : Prop :=
  ∀ (k : Key) (i : Nat), i < 16 →
    (mutateKey k).bytes.getD i 0 = k.bytes.getD i 0 + BitVec.ofNat 8 i

/-- R125, in both directions: block `n` is transformed under `MutateKey` applied `n / 128` times to the key, and a
counter that reaches 1024 after the last block causes no mutation. -/
def Obligations.RatchetSchedule : Prop :=
  ∀ (delta : Word) (key : Key) (iv : Block) (bs : List Block),
    ∀ next ∈ [encryptNext delta, decryptNext delta],
      let c := (runBlocks next (Hidden.start key iv) bs).1.cursor
      let n := bs.length
      (ratchet c).wk = mutateKey^[n / 128] key ∧
      (n = 0 → c.wk = key ∧ c.bcnt.toNat = 0) ∧
      (n ≠ 0 → c.wk = mutateKey^[(n - 1) / 128] key ∧ c.bcnt.toNat = 8 * ((n - 1) % 128 + 1))

/-- R127: ciphertext block `n` is the block transform, under the key of R125, of framed block `n` XORed with the
ciphertext block before it (the IV for the first). -/
def Obligations.EncryptStreamChainsBlocks : Prop :=
  ∀ (delta : Word) (p : List Byte) (key : Key) (iv : Block),
    let f := padFrame p
    let out := encryptStream delta p key iv
    out.length = framedLen p.length ∧
    ∀ n, n < framedLen p.length / 8 →
      let cv := if n = 0 then iv else le64 out (8 * (n - 1))
      let x := le64 f (8 * n) ^^^ cv
      let c := encryptBlock delta (lowOf x) (highOf x) (mutateKey^[n / 128] key)
      le64 out (8 * n) = (c.2 ++ c.1 : Block)

/-- R128: a length that is 0 or no multiple of 8 is a FormatError; else framed block `n` is the inverse transform, under
the key of R125, of ciphertext block `n`, XORed with the ciphertext block before it (the IV for the first), and the
framed payload is unframed, which on success leaves 4 bytes less. -/
def Obligations.DecryptStreamChainsBlocks : Prop :=
  ∀ (delta : Word) (c : List Byte) (key : Key) (iv : Block),
    (c.length = 0 ∨ c.length % 8 ≠ 0 → decryptStream delta c key iv = .error .formatError) ∧
    (∀ p, decryptStream delta c key iv = .ok p → p.length = c.length - 4) ∧
    (c.length ≠ 0 → c.length % 8 = 0 →
      ∃ f : List Byte, f.length = c.length ∧ decryptStream delta c key iv = unframeVerify f ∧
        ∀ n, n < c.length / 8 →
          let cv := if n = 0 then iv else le64 c (8 * (n - 1))
          let y := le64 c (8 * n)
          let b := decryptBlock delta (lowOf y) (highOf y) (mutateKey^[n / 128] key)
          le64 f (8 * n) = (b.2 ++ b.1 : Block) ^^^ cv)

/-- The round trip, which the spec marks as its own inference: every byte sequence comes back with its padding, under
every key, IV and `DELTA`, across every mutation boundary. -/
def Obligations.StreamRoundTrip : Prop :=
  ∀ (delta : Word) (p : List Byte) (key : Key) (iv : Block),
    decryptStream delta (encryptStream delta p key iv) key iv = .ok (p ++ zeros (padLen p.length))

/-! ## The commands on buffers -/

/-- R129: CHECKSUM, its checks in the order of R206, its result and its frame. -/
def Obligations.ChecksumCommand : Prop :=
  encode .checksum = 0x00000006#32 ∧
  ∀ s : State,
    let a := s.srcAddr.toNat
    let n := s.srcLen.toNat
    (n % 4 ≠ 0 → exec .checksum s = .next { s with status := ⟨false, true, true, 2⟩, dstLen := 0 }) ∧
    (n % 4 = 0 → ¬ (n = 0 ∨ a + n ≤ s.params.memBytes) →
      exec .checksum s = .next { s with status := ⟨false, true, true, 5⟩, dstLen := 0 }) ∧
    (n % 4 = 0 → (n = 0 ∨ a + n ≤ s.params.memBytes) →
      ∃ t, exec .checksum s = .next t ∧
        t.withoutHidden =
          State.withoutHidden
            { s with csum := checksum (s.mem.readBytes a n), status := ⟨false, true, false, 0⟩ })

/-- R130: ENCRYPT, its check, its result and its frame. On a memory of a legal size (R14) `DST_LEN` holds the whole
length. -/
def Obligations.EncryptCommand : Prop :=
  encode .encrypt = 0x00000004#32 ∧
  ∀ s : State,
    let a := s.srcAddr.toNat
    let n := s.srcLen.toNat
    let d := s.dstAddr.toNat
    let m := framedLen n
    let usable := (n = 0 ∨ a + n ≤ s.params.memBytes) ∧ d + m ≤ s.params.memBytes ∧ ¬ (n ≠ 0 ∧ a < d + m ∧ d < a + n)
    let out := encryptStream s.params.delta (s.mem.readBytes a n) s.key s.iv
    (¬ usable → exec .encrypt s = .next { s with status := ⟨false, true, true, 5⟩, dstLen := 0 }) ∧
    (usable →
      ∃ t, exec .encrypt s = .next t ∧
        t.withoutHidden =
          State.withoutHidden
            { s with mem := t.mem, dstLen := BitVec.ofNat 32 m, status := ⟨false, true, false, 0⟩ } ∧
        (∀ x, t.mem.read x = if d ≤ x ∧ x < d + m then out.getD (x - d) 0 else s.mem.read x) ∧
        (s.params.WellFormed → t.dstLen.toNat = m))

/-- R131: DECRYPT, its checks in the order of R206, its three results and its frame. After IntegrityError the bytes of the
output range are unspecified and every other byte is as before. -/
def Obligations.DecryptCommand : Prop :=
  encode .decrypt = 0x00000005#32 ∧
  ∀ s : State,
    let a := s.srcAddr.toNat
    let n := s.srcLen.toNat
    let d := s.dstAddr.toNat
    let m := n - 4
    let usable := a + n ≤ s.params.memBytes ∧ d + m ≤ s.params.memBytes ∧ ¬ (a < d + m ∧ d < a + n)
    let result := decryptStream s.params.delta (s.mem.readBytes a n) s.key s.iv
    (n = 0 ∨ n % 8 ≠ 0 → exec .decrypt s = .next { s with status := ⟨false, true, true, 2⟩, dstLen := 0 }) ∧
    (n ≠ 0 → n % 8 = 0 → ¬ usable →
      exec .decrypt s = .next { s with status := ⟨false, true, true, 5⟩, dstLen := 0 }) ∧
    (n ≠ 0 → n % 8 = 0 → usable → ∀ p, result = .ok p →
      p.length = m ∧
      ∃ t, exec .decrypt s = .next t ∧
        t.withoutHidden =
          State.withoutHidden
            { s with mem := t.mem, dstLen := BitVec.ofNat 32 m, status := ⟨false, true, false, 0⟩ } ∧
        ∀ x, t.mem.read x = if d ≤ x ∧ x < d + m then p.getD (x - d) 0 else s.mem.read x) ∧
    (n ≠ 0 → n % 8 = 0 → usable → ∀ e, result = .error e →
      e = .integrityError ∧
      ∃ t, exec .decrypt s = .next t ∧
        t.withoutHidden =
          State.withoutHidden
            { s with mem := t.mem, draws := t.draws, status := ⟨false, true, true, 3⟩, dstLen := 0 } ∧
        ∀ x, ¬ (d ≤ x ∧ x < d + m) → t.mem.read x = s.mem.read x)

/-- The round trip through the buffer memory: ENCRYPT, then DECRYPT of what it wrote, gives back the input with its
padding, across the two commands' own range checks (the spec's inference on the round trip, on commands). -/
def Obligations.EncryptThenDecryptInMemory : Prop :=
  ∀ (s : State) (back : Word), s.params.WellFormed →
    let n := s.srcLen.toNat
    let m := framedLen n
    rangesUsable s.params.memBytes ⟨s.srcAddr.toNat, n⟩ ⟨s.dstAddr.toNat, m⟩ →
    rangesUsable s.params.memBytes ⟨s.dstAddr.toNat, m⟩ ⟨back.toNat, m - 4⟩ →
    ∃ t u, exec .encrypt s = .next t ∧
      exec .decrypt { t with srcAddr := s.dstAddr, srcLen := t.dstLen, dstAddr := back } = .next u ∧
      u.status = ⟨false, true, false, 0⟩ ∧ u.dstLen.toNat = m - 4 ∧
      u.mem.readBytes back.toNat (m - 4) = s.mem.readBytes s.srcAddr.toNat n ++ zeros (padLen n)

/-! ## Configuration -/

/-- R170: CFG_KEY, its checks in the order of R206, its result and its frame. -/
def Obligations.CfgKeyCommand : Prop :=
  encode .cfgKey = 0x00000001#32 ∧
  ∀ s : State,
    let a := s.srcAddr.toNat
    let b := s.mem.readBytes a 16
    (s.srcLen.toNat ≠ 16 → exec .cfgKey s = .next { s with status := ⟨false, true, true, 1⟩, dstLen := 0 }) ∧
    (s.srcLen.toNat = 16 → ¬ a + 16 ≤ s.params.memBytes →
      exec .cfgKey s = .next { s with status := ⟨false, true, true, 5⟩, dstLen := 0 }) ∧
    (s.srcLen.toNat = 16 → a + 16 ≤ s.params.memBytes →
      exec .cfgKey s =
        .next { s with key := ⟨le32 b 0, le32 b 4, le32 b 8, le32 b 12⟩, status := ⟨false, true, false, 0⟩ })

/-- R171: CFG_IV, its checks in the order of R206, its result and its frame. -/
def Obligations.CfgIvCommand : Prop :=
  encode .cfgIv = 0x00000002#32 ∧
  ∀ s : State,
    let a := s.srcAddr.toNat
    (s.srcLen.toNat ≠ 8 → exec .cfgIv s = .next { s with status := ⟨false, true, true, 1⟩, dstLen := 0 }) ∧
    (s.srcLen.toNat = 8 → ¬ a + 8 ≤ s.params.memBytes →
      exec .cfgIv s = .next { s with status := ⟨false, true, true, 5⟩, dstLen := 0 }) ∧
    (s.srcLen.toNat = 8 → a + 8 ≤ s.params.memBytes →
      exec .cfgIv s =
        .next { s with iv := le64 (s.mem.readBytes a 8) 0, status := ⟨false, true, false, 0⟩ })

/-- R172: CFG_DEFAULT, its result and its frame. -/
def Obligations.CfgDefaultCommand : Prop :=
  encode .cfgDefault = 0x00000003#32 ∧
  ∀ s : State,
    let b := s.params.defaultKey.toList
    exec .cfgDefault s =
      .next { s with key := ⟨le32 b 0, le32 b 4, le32 b 8, le32 b 12⟩, iv := 0, status := ⟨false, true, false, 0⟩ }

/-! ## Rules over all commands -/

/-- R207, R208: what an error leaves, whichever command ends with it. No error writes the input range. -/
def Obligations.ErrorsLeaveEverythingElse : Prop :=
  ∀ (i : Instr) (s t : State), exec i s = .next t → t.status.err = true →
    t.status.busy = false ∧ t.status.done = true ∧
    t.withoutHidden =
      State.withoutHidden { s with status := t.status, dstLen := 0, mem := t.mem, draws := t.draws } ∧
    (t.status.errCode ≠ 3 → t.mem = s.mem ∧ t.draws = s.draws) ∧
    (∀ x, (inputRange i s).Holds x → t.mem.read x = s.mem.read x) ∧
    (t.status.errCode = 3 → i = .decrypt ∧
      ∀ x, ¬ (s.dstAddr.toNat ≤ x ∧ x < s.dstAddr.toNat + (s.srcLen.toNat - 4)) → t.mem.read x = s.mem.read x)

/-- R27: when and how `DST_LEN` is written. -/
def Obligations.DstLenIsWrittenByTheEngineOnly : Prop :=
  State.reset.dstLen = 0 ∧
  (∀ (i : Instr) (s t : State), exec i s = .next t →
    (t.status.err = true → t.dstLen = 0) ∧
    (t.status.err = false → i = .encrypt → t.dstLen = BitVec.ofNat 32 (framedLen s.srcLen.toNat)) ∧
    (t.status.err = false → i = .decrypt → t.dstLen = BitVec.ofNat 32 (s.srcLen.toNat - 4)) ∧
    (t.status.err = false → i ≠ .encrypt → i ≠ .decrypt → t.dstLen = s.dstLen)) ∧
  ∀ (s : State) (v : Word) (rest : List Event), s.hfault = false → s.status.busy = false →
    s.events = .host (.regWrite 32 0x14 v) :: rest → step s = .next { s with events := rest }

/-- No command writes `SRC_ADDR`, `SRC_LEN`, `DST_ADDR`, the pending word, the parameters or what the host has read (R24
to R26, R74), and only CFG_KEY and CFG_DEFAULT write `KEY`, CFG_IV and CFG_DEFAULT `IV`, CHECKSUM `CSUM`, ENCBLK and
DECBLK the `BLK` words, ENCRYPT and DECRYPT memory (R28, R29, R31, R32). -/
def Obligations.CommandsWriteOnlyTheirResults : Prop :=
  ∀ (i : Instr) (s t : State), exec i s = .next t →
    t.srcAddr = s.srcAddr ∧ t.srcLen = s.srcLen ∧ t.dstAddr = s.dstAddr ∧ t.pend = s.pend ∧ t.params = s.params ∧
    t.hfault = s.hfault ∧ t.events = s.events ∧ t.replies = s.replies ∧
    (i ∉ [Instr.cfgKey, .cfgDefault] → t.key = s.key) ∧
    (i ∉ [Instr.cfgIv, .cfgDefault] → t.iv = s.iv) ∧
    (i ≠ .checksum → t.csum = s.csum) ∧
    (i ∉ [Instr.encblk, .decblk] → t.blkLo = s.blkLo ∧ t.blkHi = s.blkHi) ∧
    (i ∉ [Instr.encrypt, .decrypt] → t.mem = s.mem)

/-- A step changes `KEY`, `IV` or `CSUM` only by completing one of the commands that write it, or by reset (R29, R31, R32,
R173). -/
def Obligations.KeyIvCsumChangeOnlyByTheirCommandsOrReset : Prop :=
  ∀ s t : State, step s = .next t →
    let completes := fun (words : List Word) =>
      (s.events = [] ∨ ∃ rest, s.events = .engine :: rest) ∧ s.status.busy = true ∧ s.pend ∈ words
    let resets := ∃ rest, s.events = .host .reset :: rest
    (t.key ≠ s.key → completes [0x1#32, 0x3#32] ∨ resets) ∧
    (t.iv ≠ s.iv → completes [0x2#32, 0x3#32] ∨ resets) ∧
    (t.csum ≠ s.csum → completes [0x6#32] ∨ resets)

/-- R60: a command writes no byte outside its output range, and no byte of its input range. -/
def Obligations.CommandsWriteOnlyTheirOutputRange : Prop :=
  ∀ (i : Instr) (s t : State), exec i s = .next t →
    (∀ x, ¬ (outputRange i s).Holds x → t.mem.read x = s.mem.read x) ∧
    (∀ x, (inputRange i s).Holds x → t.mem.read x = s.mem.read x)

/-- R60: a command reads no byte outside its input range: on a memory that agrees there it ends the same way, and writes
the same output. -/
def Obligations.CommandsReadOnlyTheirInputRange : Prop :=
  ∀ (i : Instr) (s t : State) (m : Memory), exec i s = .next t →
    (∀ x, (inputRange i s).Holds x → m.read x = s.mem.read x) →
    ∃ u, exec i { s with mem := m } = .next u ∧ { u with mem := t.mem } = t ∧
      (t.status.err = false → ∀ x, (outputRange i s).Holds x → u.mem.read x = t.mem.read x)

/-- R209: reissuing the same command on the state an error left gives the same error. -/
def Obligations.ErrorsRepeat : Prop :=
  ∀ (i : Instr) (s t : State), exec i s = .next t → t.status.err = true →
    ∃ u, exec i t = .next u ∧ u.status = t.status ∧ u.dstLen = t.dstLen

/-! ## Reset -/

/-- R230: reset while idle, every piece of state in the rule's table; `PEND` and the hidden state are left open. -/
def Obligations.ResetWhileIdle : Prop :=
  ∀ s : State, s.status.busy = false →
    let b := s.params.defaultKey.toList
    let t := s.assertReset
    t.withoutHidden =
      State.withoutHidden
        { s with
          status := ⟨false, false, false, 0⟩, srcAddr := 0, srcLen := 0, dstAddr := 0, dstLen := 0, blkLo := 0,
          blkHi := 0, csum := 0, key := ⟨le32 b 0, le32 b 4, le32 b 8, le32 b 12⟩, iv := 0, pend := t.pend,
          mem := t.mem, draws := t.draws } ∧
    ∀ x, t.mem.read x = s.mem.read x

/-- R231: reset while a command is pending: the state of R230, but for the bytes of the aborted command's output range,
clipped to the buffer memory. -/
def Obligations.ResetAbortsThePendingCommand : Prop :=
  ∀ s : State, s.status.busy = true →
    let b := s.params.defaultKey.toList
    let t := s.assertReset
    let n := s.srcLen.toNat
    let d := s.dstAddr.toNat
    t.withoutHidden =
      State.withoutHidden
        { s with
          status := ⟨false, false, false, 0⟩, srcAddr := 0, srcLen := 0, dstAddr := 0, dstLen := 0, blkLo := 0,
          blkHi := 0, csum := 0, key := ⟨le32 b 0, le32 b 4, le32 b 8, le32 b 12⟩, iv := 0, pend := t.pend,
          mem := t.mem, draws := t.draws } ∧
    ∀ x,
      ¬ (x < s.params.memBytes ∧ d ≤ x ∧
        (decode s.pend = .command .encrypt ∧ x < d + framedLen n ∨ decode s.pend = .command .decrypt ∧ x < d + (n - 4))) →
      t.mem.read x = s.mem.read x

/-- A reset event is that reset, and `HFAULT` is never cleared, not even by reset (R38, R230). -/
def Obligations.ResetEventAndHfault : Prop :=
  ∀ s : State, s.assertReset.hfault = s.hfault ∧
    ∀ rest, s.hfault = false → s.events = .host .reset :: rest →
      step s = .next (State.assertReset { s with events := rest })

/-- Power-on (R230, R232; vector V-Z): every register reads 0, `KEY` is the default key, `IV` is 0, the memory holds
whatever it holds. The model's own choices: `State.reset` is the power-on of the parameters of `Config` (log 1) with
nothing listed (log 5), and `HFAULT` is 0 at power-on (log 19, from the state table of `10_state.md`). -/
def Obligations.PowerOnState : Prop :=
  State.reset = State.powerOn Config.params [] ∧
  ∀ (p : Params) (m : Memory),
    let s := State.powerOn p m
    (∀ r : Reg, s.readReg r = 0) ∧ s.status = ⟨false, false, false, 0⟩ ∧
    (∀ j, j < 4 → le32 s.key.bytes (4 * j) = le32 p.defaultKey.toList (4 * j)) ∧
    s.iv = 0 ∧ s.mem = m ∧ s.hfault = false ∧ s.params = p

/-! ## The host port -/

/-- `CMD` is written while idle, read, and written while busy (R22, R235). That the write while busy, a violation,
changes nothing but `HFAULT` is the model's choice (log 9), and so is the list of replies (log 3). -/
def Obligations.CmdRegister : Prop :=
  ∀ (s : State) (v : Word) (rest : List Event), s.hfault = false →
    (s.status.busy = false → s.events = .host (.regWrite 32 0x00 v) :: rest →
      step s = .next { s with pend := v, status := ⟨true, false, false, 0⟩, events := rest }) ∧
    (s.events = .host (.regRead 32 0x00) :: rest →
      step s = .next { s with replies := .word 0 :: s.replies, events := rest }) ∧
    (s.status.busy = true → s.events = .host (.regWrite 32 0x00 v) :: rest →
      step s = .next { s with hfault := true, events := rest })

/-- R23: the STATUS word, bit by bit. -/
def Obligations.StatusWordLayout : Prop :=
  ∀ t : Status,
    t.word.toNat = t.busy.toNat + 2 * t.done.toNat + 4 * t.err.toNat + 16 * t.errCode.toNat

/-- Host writes while idle, to every register but `CMD`: an operand or `BLK` register takes the value; STATUS, `DST_LEN`,
`CSUM` and the seven reserved offsets ignore it (R24 to R30, the table of R242). -/
def Obligations.IdleRegisterWrites : Prop :=
  ∀ (s : State) (v : Word) (rest : List Event) (offset : Nat), s.hfault = false → s.status.busy = false →
    s.events = .host (.regWrite 32 offset v) :: rest →
    (offset = 0x08 → step s = .next { s with srcAddr := v, events := rest }) ∧
    (offset = 0x0C → step s = .next { s with srcLen := v, events := rest }) ∧
    (offset = 0x10 → step s = .next { s with dstAddr := v, events := rest }) ∧
    (offset = 0x18 → step s = .next { s with blkLo := v, events := rest }) ∧
    (offset = 0x1C → step s = .next { s with blkHi := v, events := rest }) ∧
    (offset ∈ [0x04, 0x14, 0x20, 0x24, 0x28, 0x2C, 0x30, 0x34, 0x38, 0x3C] → step s = .next { s with events := rest })

/-- Host reads while idle give the register's value and change nothing (R22 to R30, R67). -/
def Obligations.IdleRegisterReads : Prop :=
  ∀ (s : State) (rest : List Event) (offset : Nat) (v : Word), s.hfault = false → s.status.busy = false →
    s.events = .host (.regRead 32 offset) :: rest →
    (offset, v) ∈
      [(0x00, 0), (0x04, s.status.word), (0x08, s.srcAddr), (0x0C, s.srcLen), (0x10, s.dstAddr), (0x14, s.dstLen),
       (0x18, s.blkLo), (0x1C, s.blkHi), (0x20, s.csum), (0x24, 0), (0x28, 0), (0x2C, 0), (0x30, 0), (0x34, 0),
       (0x38, 0), (0x3C, 0)] →
    step s = .next { s with replies := .word v :: s.replies, events := rest }

/-- R238: register reads while busy. -/
def Obligations.BusyRegisterReads : Prop :=
  ∀ (s : State) (rest : List Event) (offset : Nat) (v : Word), s.hfault = false → s.status = ⟨true, false, false, 0⟩ →
    s.events = .host (.regRead 32 offset) :: rest →
    ((offset, v) ∈
      [(0x00, 0), (0x04, 1), (0x08, s.srcAddr), (0x0C, s.srcLen), (0x10, s.dstAddr), (0x24, 0), (0x28, 0), (0x2C, 0),
       (0x30, 0), (0x34, 0), (0x38, 0), (0x3C, 0)] →
      step s = .next { s with replies := .word v :: s.replies, events := rest }) ∧
    (offset ∈ [0x14, 0x18, 0x1C, 0x20] →
      ∃ free draws, step s = .next { s with replies := .word free :: s.replies, events := rest, draws := draws })

/-- Any register write while busy, at any offset and of any width, sets `HFAULT` (R235, R236). That it changes nothing
else is the model's choice (log 9). -/
def Obligations.BusyRegisterWritesFault : Prop :=
  ∀ (s : State) (rest : List Event) (width offset : Nat) (v : Word), s.hfault = false → s.status.busy = true →
    s.events = .host (.regWrite width offset v) :: rest →
    step s = .next { s with hfault := true, events := rest }

/-- A register access of another width, at an unaligned offset or beyond the register space sets `HFAULT` (R21). That it
changes nothing else, and that such a read returns no value, is the model's choice (log 9). -/
def Obligations.MalformedRegisterAccessFaults : Prop :=
  ∀ (s : State) (rest : List Event) (width offset : Nat) (v : Word), s.hfault = false →
    (width ≠ 32 ∨ offset % 4 ≠ 0 ∨ 0x40 ≤ offset) →
    (s.events = .host (.regRead width offset) :: rest ∨ s.events = .host (.regWrite width offset v) :: rest) →
    step s = .next { s with hfault := true, events := rest }

/-- R237: the active ranges of the pending command. CFG_KEY and CFG_IV are read as 16 and 8 bytes whatever `SRC_LEN`
holds (the model's choice, log 11). -/
def Obligations.ActiveRangesOfThePendingCommand : Prop :=
  ∀ s : State,
    let a := s.srcAddr.toNat
    let n := s.srcLen.toNat
    let d := s.dstAddr.toNat
    (s.pend = 0x1 → ∀ x, ((pendingInput s).Holds x ↔ a ≤ x ∧ x < a + 16) ∧ ¬ (pendingOutput s).Holds x) ∧
    (s.pend = 0x2 → ∀ x, ((pendingInput s).Holds x ↔ a ≤ x ∧ x < a + 8) ∧ ¬ (pendingOutput s).Holds x) ∧
    (s.pend = 0x4 → ∀ x, ((pendingInput s).Holds x ↔ a ≤ x ∧ x < a + n) ∧
      ((pendingOutput s).Holds x ↔ d ≤ x ∧ x < d + framedLen n)) ∧
    (s.pend = 0x5 → ∀ x, ((pendingInput s).Holds x ↔ a ≤ x ∧ x < a + n) ∧
      ((pendingOutput s).Holds x ↔ 4 ≤ n ∧ d ≤ x ∧ x < d + (n - 4))) ∧
    (s.pend = 0x6 → ∀ x, ((pendingInput s).Holds x ↔ a ≤ x ∧ x < a + n) ∧ ¬ (pendingOutput s).Holds x) ∧
    (s.pend ∉ [0x1#32, 0x2#32, 0x4#32, 0x5#32, 0x6#32] →
      ∀ x, ¬ (pendingInput s).Holds x ∧ ¬ (pendingOutput s).Holds x)

/-- Host byte writes (R237, R242): in an active range while busy `HFAULT`, elsewhere and while idle the byte is stored
and no other byte changes. That the violation changes nothing but `HFAULT`, and so stores no byte, is the model's choice
(log 9). -/
def Obligations.HostByteWrites : Prop :=
  ∀ (s : State) (rest : List Event) (x : Nat) (b : Byte), s.hfault = false → x < s.params.memBytes →
    s.events = .host (.memWrite x b) :: rest →
    let active := (pendingInput s).Holds x ∨ (pendingOutput s).Holds x
    (s.status.busy = true → active → step s = .next { s with hfault := true, events := rest }) ∧
    (s.status.busy = false ∨ ¬ active →
      ∃ m, step s = .next { s with mem := m, events := rest } ∧ ∀ y, m.read y = if y = x then b else s.mem.read y)

/-- Host byte reads (R237, R242): a free value in the output range while busy, else the byte; nothing else changes. -/
def Obligations.HostByteReads : Prop :=
  ∀ (s : State) (rest : List Event) (x : Nat), s.hfault = false → x < s.params.memBytes →
    s.events = .host (.memRead x) :: rest →
    (s.status.busy = true → (pendingOutput s).Holds x →
      ∃ free draws, step s = .next { s with replies := .byte free :: s.replies, events := rest, draws := draws }) ∧
    (s.status.busy = false ∨ ¬ (pendingOutput s).Holds x →
      step s = .next { s with replies := .byte (s.mem.read x) :: s.replies, events := rest })

/-- A host byte access beyond the buffer memory stops the model (R50 has no such byte; the model's choice, log 8). -/
def Obligations.HostAccessBeyondMemoryStops : Prop :=
  ∀ (s : State) (rest : List Event) (x : Nat) (b : Byte), s.hfault = false → s.params.memBytes ≤ x →
    (s.events = .host (.memRead x) :: rest ∨ s.events = .host (.memWrite x b) :: rest) →
    step s = .fault (.noSuchByte x)

/-- `HFAULT` is set by the host-protocol violations of R21, R235, R236 and R237 and by nothing else (R38, R210). -/
def Obligations.OnlyViolationsSetHfault : Prop :=
  ∀ s t : State, step s = .next t → t.hfault = true →
    ∃ op rest, s.events = .host op :: rest ∧
      match op with
      | .regWrite width offset _ => s.status.busy = true ∨ ¬ RegAccessWellFormed width offset
      | .regRead width offset => ¬ RegAccessWellFormed width offset
      | .memWrite x _ => s.status.busy = true ∧ ((pendingInput s).Holds x ∨ (pendingOutput s).Holds x)
      | .memRead _ => False
      | .reset => False

/-- The host cannot read the key or the IV (R31, R32): no host operation but reset acts differently under another key
and IV, and none changes them. -/
def Obligations.HostCannotReadKeyOrIv : Prop :=
  ∀ (s : State) (k : Key) (v : Block) (op : HostOp), op ≠ .reset →
    (∀ t, hostStep op s = .next t →
      t.key = s.key ∧ t.iv = s.iv ∧ hostStep op { s with key := k, iv := v } = .next { t with key := k, iv := v }) ∧
    (∀ f, hostStep op s = .fault f → hostStep op { s with key := k, iv := v } = .fault f)

/-! ## Whole runs -/

/-- The invariant of the machine holds after reset (R14, R23, R34, R50). -/
def Obligations.ResetMeetsTheInvariant : Prop := State.reset.Inv

/-- Every step keeps the invariant: the memory stays in its canonical form and inside `MEM_BYTES`, the STATUS fields
stay related as R23 says, the hidden counters stay in the ranges of R34 and R35. -/
def Obligations.EveryStepKeepsTheInvariant : Prop :=
  ∀ s t : State, s.Inv → step s = .next t → t.Inv

/-- R34, R39: what one operation leaves in the hidden state is never seen again: two runs that differ only there stop the
same way, or reach states that differ only there. -/
def Obligations.HiddenStateIsNeverSeen : Prop :=
  ∀ (n : Nat) (s : State) (h : Hidden),
    (∀ t, core.run n s = .next t →
      ∃ u, core.run n { s with hidden := h } = .next u ∧ u.withoutHidden = t.withoutHidden) ∧
    (∀ f, core.run n s = .fault f → core.run n { s with hidden := h } = .fault f)

/-- `wait` (R77) ends, and however many times the host polls before the engine's turn the command ends the same way
(R61, R239): the polls read the busy word, the last read gives the final STATUS, and nothing else differs from the
completion of the command with no host access in between. That the engine has its turn after finitely many polls is put
in by the list of events, and an empty list gives it its turn too: the model's choices (log 2, log 20). -/
def Obligations.WaitEndsHoweverLongTheEngineTakes : Prop :=
  ∀ (s : State) (polls : Nat), s.hfault = false → s.status = ⟨true, false, false, 0⟩ →
    s.events = HostProgram.wait polls →
    ∃ t u, core.run (polls + 2) s = .next t ∧ step { s with events := [] } = .next u ∧
      t.status.busy = false ∧ t.status.done = true ∧
      t = { u with replies := .word u.status.word :: (List.replicate polls (.word 1) ++ s.replies) }

/-- R243: a run whose host has performed its last operation, with `BUSY = 0` and `HFAULT = 0`, is observed by its
registers, `KEY`, `IV` and memory, also when engine turns are still listed; a run with `HFAULT = 1`, with a command still
pending or with a host operation left has no observation. -/
def Obligations.ObservationOfARun : Prop :=
  ∀ s : State,
    (s.hfault = true → s.observe = none) ∧
    (s.status.busy = true → s.observe = none) ∧
    ((∃ op, .host op ∈ s.events) → s.observe = none) ∧
    (s.hfault = false → s.status.busy = false → (∀ op, .host op ∉ s.events) →
      s.observe = some ⟨s.status.word, s.srcAddr, s.srcLen, s.dstAddr, s.dstLen, s.blkLo, s.blkHi, s.csum, s.key, s.iv,
        s.mem⟩)
end

