-- ==== Sys2Proof/Laws/Bytes.lean ====
section
/-! SUPPORT. Byte order (R16, R52 to R56): words and blocks against their bytes, and the blocks of a byte sequence. -/

namespace Sys2Proof.Machine

@[simp] theorem bytes32_length (w : Word) : (bytes32 w).length = 4 := rfl

@[simp] theorem bytes64_length (v : Block) : (bytes64 v).length = 8 := rfl

@[simp] theorem zeros_length (n : Nat) : (zeros n).length = n := by simp [zeros]

@[simp] theorem key_bytes_length (k : Key) : k.bytes.length = 16 := rfl

@[simp] theorem bytesOfBlocks_nil : bytesOfBlocks [] = [] := rfl

@[simp] theorem bytesOfBlocks_cons (v : Block) (vs : List Block) :
    bytesOfBlocks (v :: vs) = bytes64 v ++ bytesOfBlocks vs := rfl

@[simp] theorem bytesOfBlocks_length (vs : List Block) : (bytesOfBlocks vs).length = 8 * vs.length := by
  induction vs with
  | nil => rfl
  | cons v vs ih => simp [ih]; omega

/-- A word is the word of its four bytes (R52). -/
@[simp] theorem word32_bytes (w : Word) :
    word32 (w.extractLsb' 0 8) (w.extractLsb' 8 8) (w.extractLsb' 16 8) (w.extractLsb' 24 8) = w := by
  simp only [word32]
  ext i hi
  simp only [BitVec.getElem_append, BitVec.getElem_extractLsb']
  split_ifs <;> simp [← BitVec.getLsbD_eq_getElem] <;> congr 1 <;> omega

/-- The bits of a block put together from two words (R53). -/
theorem block_getLsbD (high low : Word) (i : Nat) :
    (high ++ low : Block).getLsbD i = if i < 32 then low.getLsbD i else high.getLsbD (i - 32) := by
  have h := BitVec.getLsbD_append (x := high) (y := low) (i := i)
  simpa only [Bool.cond_eq_ite, decide_eq_true_eq] using h

/-- The bits of a word put together from four bytes (R52). -/
theorem word32_getLsbD (b0 b1 b2 b3 : Byte) (i : Nat) :
    (word32 b0 b1 b2 b3).getLsbD i =
      if i < 8 then b0.getLsbD i else if i < 16 then b1.getLsbD (i - 8)
      else if i < 24 then b2.getLsbD (i - 16) else b3.getLsbD (i - 24) := by
  have h2 := BitVec.getLsbD_append (x := b3 ++ b2 ++ b1) (y := b0) (i := i)
  have h1 := BitVec.getLsbD_append (x := b3 ++ b2) (y := b1) (i := i - 8)
  have h0 := BitVec.getLsbD_append (x := b3) (y := b2) (i := i - 8 - 8)
  rw [h0] at h1
  rw [h1] at h2
  refine h2.trans ?_
  simp only [Nat.sub_sub, Nat.reduceAdd]
  split_ifs <;> first | rfl | omega

/-- The value of a word from its bytes (R52). -/
theorem word32_toNat (b0 b1 b2 b3 : Byte) :
    (word32 b0 b1 b2 b3).toNat = b0.toNat + 256 * b1.toNat + 65536 * b2.toNat + 16777216 * b3.toNat := by
  have := b0.isLt
  have := b1.isLt
  have := b2.isLt
  have := b3.isLt
  simp only [word32, BitVec.toNat_append]
  rw [← Nat.shiftLeft_add_eq_or_of_lt (by omega), ← Nat.shiftLeft_add_eq_or_of_lt (by omega),
    ← Nat.shiftLeft_add_eq_or_of_lt (by omega)]
  simp only [Nat.shiftLeft_eq]
  omega

/-- Four bytes are the bytes of their word (R52). -/
@[simp] theorem bytes32_word32 (b0 b1 b2 b3 : Byte) : bytes32 (word32 b0 b1 b2 b3) = [b0, b1, b2, b3] := by
  simp only [bytes32, List.cons.injEq, and_true]
  refine ⟨?_, ?_, ?_, ?_⟩ <;> ext i hi <;> simp only [BitVec.getElem_extractLsb', word32_getLsbD] <;>
    split_ifs <;> first | omega | simp [← BitVec.getLsbD_eq_getElem]

/-- The low word of a block put together from two words (R53). -/
@[simp] theorem lowOf_append (high low : Word) : lowOf (high ++ low : Block) = low := by
  ext i hi
  simp only [lowOf, BitVec.getElem_extractLsb', block_getLsbD]
  simp [hi, ← BitVec.getLsbD_eq_getElem]

/-- The high word of a block put together from two words (R53). -/
@[simp] theorem highOf_append (high low : Word) : highOf (high ++ low : Block) = high := by
  ext i hi
  simp only [highOf, BitVec.getElem_extractLsb', block_getLsbD]
  simp [← BitVec.getLsbD_eq_getElem]

/-- A block is its high word above its low word (R53). -/
@[simp] theorem high_append_low (v : Block) : (highOf v ++ lowOf v : Block) = v := by
  ext i hi
  simp only [highOf, lowOf, BitVec.getElem_append, BitVec.getElem_extractLsb']
  split_ifs <;> simp [← BitVec.getLsbD_eq_getElem]
  congr 1; omega

/-- The blocks of a byte sequence put together from blocks (R127, R128). -/
@[simp] theorem blocksOf_bytesOfBlocks (vs : List Block) : blocksOf (bytesOfBlocks vs) = vs := by
  induction vs with
  | nil => rfl
  | cons v vs ih =>
    have h : blocksOf (bytes64 v ++ bytesOfBlocks vs) =
        (word32 ((highOf v).extractLsb' 0 8) ((highOf v).extractLsb' 8 8) ((highOf v).extractLsb' 16 8)
            ((highOf v).extractLsb' 24 8) ++
          word32 ((lowOf v).extractLsb' 0 8) ((lowOf v).extractLsb' 8 8) ((lowOf v).extractLsb' 16 8)
            ((lowOf v).extractLsb' 24 8)) :: blocksOf (bytesOfBlocks vs) := rfl
    rw [bytesOfBlocks_cons, h, ih, word32_bytes, word32_bytes, high_append_low]

/-- One block taken off the front of a byte sequence. -/
theorem blocksOf_eight (b0 b1 b2 b3 b4 b5 b6 b7 : Byte) (rest : List Byte) :
    blocksOf (b0 :: b1 :: b2 :: b3 :: b4 :: b5 :: b6 :: b7 :: rest) =
      (word32 b4 b5 b6 b7 ++ word32 b0 b1 b2 b3) :: blocksOf rest := by
  rw [blocksOf]

/-- A sequence of at least 8 bytes begins with 8 bytes. -/
theorem eight_of_length {bs : List Byte} (h : 8 ≤ bs.length) :
    ∃ b0 b1 b2 b3 b4 b5 b6 b7 rest, bs = b0 :: b1 :: b2 :: b3 :: b4 :: b5 :: b6 :: b7 :: rest := by
  match bs, h with
  | b0 :: b1 :: b2 :: b3 :: b4 :: b5 :: b6 :: b7 :: rest, _ => exact ⟨b0, b1, b2, b3, b4, b5, b6, b7, rest, rfl⟩

/-- A sequence of at least 4 bytes begins with 4 bytes. -/
theorem four_of_length {bs : List Byte} (h : 4 ≤ bs.length) :
    ∃ b0 b1 b2 b3 rest, bs = b0 :: b1 :: b2 :: b3 :: rest := by
  match bs, h with
  | b0 :: b1 :: b2 :: b3 :: rest, _ => exact ⟨b0, b1, b2, b3, rest, rfl⟩

/-- Fewer than 8 bytes hold no block. -/
theorem blocksOf_short {bs : List Byte} (h : bs.length < 8) : blocksOf bs = [] := by
  rw [blocksOf]
  rintro b0 b1 b2 b3 b4 b5 b6 b7 rest rfl
  simp only [List.length_cons] at h
  omega

/-- Induction over a byte sequence 8 bytes at a time. -/
theorem eight_induction {P : List Byte → Prop} (short : ∀ bs, bs.length < 8 → P bs)
    (step : ∀ b0 b1 b2 b3 b4 b5 b6 b7 rest, P rest → P (b0 :: b1 :: b2 :: b3 :: b4 :: b5 :: b6 :: b7 :: rest))
    (bs : List Byte) : P bs := by
  by_cases h : bs.length < 8
  · exact short bs h
  · obtain ⟨b0, b1, b2, b3, b4, b5, b6, b7, rest, rfl⟩ := eight_of_length (Nat.not_lt.mp h)
    exact step _ _ _ _ _ _ _ _ _ (eight_induction short step rest)
termination_by bs.length

@[simp] theorem blocksOf_length (bs : List Byte) : (blocksOf bs).length = bs.length / 8 := by
  induction bs using eight_induction with
  | short bs h => rw [blocksOf_short h, Nat.div_eq_of_lt h, List.length_nil]
  | step b0 b1 b2 b3 b4 b5 b6 b7 rest ih => rw [blocksOf_eight]; simp only [List.length_cons, ih]; omega

/-- A byte sequence of whole blocks is the bytes of its blocks (R53). -/
theorem bytesOfBlocks_blocksOf {bs : List Byte} (h : bs.length % 8 = 0) : bytesOfBlocks (blocksOf bs) = bs := by
  revert h
  induction bs using eight_induction with
  | short bs h =>
    intro h8
    have : bs = [] := List.length_eq_zero_iff.mp (by omega)
    simp [this, blocksOf]
  | step b0 b1 b2 b3 b4 b5 b6 b7 rest ih =>
    intro h8
    simp only [List.length_cons] at h8
    rw [blocksOf_eight, bytesOfBlocks_cons, ih (by omega)]
    simp [bytes64]

/-- Block `n` of a byte sequence is `le64(bs, 8*n)` (R53). -/
theorem blocksOf_get (bs : List Byte) (n : Nat) (h : n < bs.length / 8) : (blocksOf bs).getD n 0 = le64 bs (8 * n) := by
  revert n
  induction bs using eight_induction with
  | short bs hs => intro n h; omega
  | step b0 b1 b2 b3 b4 b5 b6 b7 rest ih =>
    intro n h
    rw [blocksOf_eight]
    match n with
    | 0 => rfl
    | n + 1 =>
      simp only [List.length_cons] at h
      rw [List.getD_cons_succ, ih n (by omega), Nat.mul_succ]
      simp only [le64, le32, Nat.add_assoc, Nat.reduceAdd, Nat.add_comm (8 * n)]
      simp only [← Nat.add_assoc, Nat.add_comm _ (8 * n)]
      simp

/-- A key is the key of its 16 bytes (R54). -/
@[simp] theorem keyOfBytes_bytes (k : Key) : keyOfBytes k.bytes = k := by
  simp [keyOfBytes, Key.bytes, le32, bytes32]

end Sys2Proof.Machine
end

