-- ==== Sys2Proof/Laws/Memory.lean ====
section
/-! SUPPORT. The buffer memory (R50, R51): a read after a write, everything a write leaves alone, and the canonical form
every write keeps. -/

namespace Sys2Proof.Machine

@[simp] theorem read_nil (x : Nat) : Memory.read [] x = 0 := rfl

theorem read_cons (b : Nat) (v : Byte) (m : Memory) (x : Nat) :
    Memory.read ((b, v) :: m) x = if b = x then v else Memory.read m x := rfl

/-- An address no cell lists reads 0. -/
theorem read_of_unlisted {m : Memory} {x : Nat} (h : ∀ c ∈ m, c.1 ≠ x) : Memory.read m x = 0 := by
  induction m with
  | nil => rfl
  | cons c m ih =>
    rw [read_cons, if_neg (h c (by simp))]
    exact ih fun d hd => h d (by simp [hd])

/-- Reading a joined listing, at an address the first part does not list. -/
theorem read_append_right {m n : Memory} {x : Nat} (h : ∀ c ∈ m, c.1 ≠ x) :
    Memory.read (m ++ n) x = Memory.read n x := by
  induction m with
  | nil => rfl
  | cons c m ih =>
    rw [List.cons_append, read_cons, if_neg (h c (by simp))]
    exact ih fun d hd => h d (by simp [hd])

/-- Reading a joined listing, at an address the second part does not list. -/
theorem read_append_left {m n : Memory} {x : Nat} (h : ∀ c ∈ n, c.1 ≠ x) :
    Memory.read (m ++ n) x = Memory.read m x := by
  induction m with
  | nil => exact read_of_unlisted h
  | cons c m ih => rw [List.cons_append, read_cons, read_cons, ih]

/-- Reading a filtered listing, at an address the filter keeps. -/
theorem read_filter {m : Memory} {p : Nat → Bool} {x : Nat} (h : p x = true) :
    Memory.read (m.filter fun c => p c.1) x = Memory.read m x := by
  induction m with
  | nil => rfl
  | cons c m ih =>
    rw [List.filter_cons, read_cons]
    by_cases hx : c.1 = x
    · rw [if_pos (by rw [hx]; exact h), read_cons, if_pos hx, if_pos hx]
    · rw [if_neg hx]
      split
      · rw [read_cons, if_neg hx, ih]
      · exact ih

/-- The addresses a run of bytes lists. -/
theorem cellsAt_bounds {a : Nat} {bs : List Byte} {c : Host.Cell} (h : c ∈ cellsAt a bs) :
    a ≤ c.1 ∧ c.1 < a + bs.length ∧ c.2 ≠ 0 := by
  induction bs generalizing a with
  | nil => simp [cellsAt] at h
  | cons b bs ih =>
    rw [cellsAt] at h
    split at h
    · obtain ⟨h1, h2, h3⟩ := ih h
      exact ⟨by omega, by simp only [List.length_cons]; omega, h3⟩
    · rcases List.mem_cons.mp h with rfl | h
      · exact ⟨Nat.le_refl _, by simp only [List.length_cons]; omega, by assumption⟩
      · obtain ⟨h1, h2, h3⟩ := ih h
        exact ⟨by omega, by simp only [List.length_cons]; omega, h3⟩

/-- Reading a run of bytes. -/
theorem read_cellsAt (a : Nat) (bs : List Byte) (x : Nat) :
    Memory.read (cellsAt a bs) x = if a ≤ x ∧ x < a + bs.length then bs.getD (x - a) 0 else 0 := by
  induction bs generalizing a with
  | nil => simp [cellsAt]
  | cons b bs ih =>
    have tail : Memory.read (cellsAt (a + 1) bs) a = 0 :=
      read_of_unlisted fun c hc => by have := cellsAt_bounds hc; omega
    by_cases hx : a = x
    · subst hx
      rw [if_pos (by simp), Nat.sub_self, List.getD_cons_zero, cellsAt]
      split
      · rw [tail]; symm; assumption
      · rw [read_cons, if_pos rfl]
    · have step : Memory.read (cellsAt a (b :: bs)) x = Memory.read (cellsAt (a + 1) bs) x := by
        rw [cellsAt]
        split
        · rfl
        · rw [read_cons, if_neg hx]
      rw [step, ih]
      simp only [List.length_cons]
      by_cases hr : a + 1 ≤ x ∧ x < a + 1 + bs.length
      · rw [if_pos hr, if_pos (by omega), show x - a = (x - (a + 1)) + 1 by omega, List.getD_cons_succ]
      · rw [if_neg hr, if_neg (by omega)]

/-- A read after a write: the written bytes in the written range, every other byte as before (R51). -/
theorem read_writeBytes (m : Memory) (a : Nat) (bs : List Byte) (x : Nat) :
    (m.writeBytes a bs).read x = if a ≤ x ∧ x < a + bs.length then bs.getD (x - a) 0 else m.read x := by
  have below : ∀ c ∈ m.filter (fun c => decide (c.1 < a)), c.1 < a := fun c hc => by
    simpa using (List.mem_filter.mp hc).2
  have above : ∀ c ∈ m.filter (fun c => decide (a + bs.length ≤ c.1)), a + bs.length ≤ c.1 := fun c hc => by
    simpa using (List.mem_filter.mp hc).2
  unfold Memory.writeBytes
  by_cases h1 : x < a
  · rw [if_neg (by omega), read_append_left fun c hc => by have := above c hc; omega,
      read_append_left fun c hc => by have := cellsAt_bounds hc; omega]
    exact read_filter (p := fun b => decide (b < a)) (by simpa using h1)
  · by_cases h2 : x < a + bs.length
    · rw [if_pos (by omega), read_append_left fun c hc => by have := above c hc; omega,
        read_append_right fun c hc => by have := below c hc; omega, read_cellsAt, if_pos (by omega)]
    · rw [if_neg (by omega), List.append_assoc, read_append_right fun c hc => by have := below c hc; omega,
        read_append_right fun c hc => by have := cellsAt_bounds hc; omega]
      exact read_filter (p := fun b => decide (a + bs.length ≤ b)) (by simpa using h2)

/-- A byte outside the written range is as before (R51). -/
theorem read_writeBytes_outside {m : Memory} {a : Nat} {bs : List Byte} {x : Nat}
    (h : x < a ∨ a + bs.length ≤ x) : (m.writeBytes a bs).read x = m.read x := by
  rw [read_writeBytes, if_neg (by omega)]

/-- A byte inside the written range is the byte written (R51). -/
theorem read_writeBytes_inside {m : Memory} {a : Nat} {bs : List Byte} {i : Nat} (h : i < bs.length) :
    (m.writeBytes a bs).read (a + i) = bs.getD i 0 := by
  rw [read_writeBytes, if_pos (by omega), Nat.add_sub_cancel_left]

/-- A host byte write (R57). -/
theorem read_write (m : Memory) (a : Nat) (b : Byte) (x : Nat) :
    (m.write a b).read x = if x = a then b else m.read x := by
  rw [Memory.write, read_writeBytes]
  by_cases h : x = a
  · subst h; simp
  · rw [if_neg h, if_neg (by simp only [List.length_singleton]; omega)]

@[simp] theorem writeBytes_nil_read (m : Memory) (a x : Nat) : (m.writeBytes a []).read x = m.read x := by
  rw [read_writeBytes, if_neg (by simp)]

@[simp] theorem readBytes_length (m : Memory) (a n : Nat) : (m.readBytes a n).length = n := by
  simp [Memory.readBytes]

theorem readBytes_getD {m : Memory} {a n i : Nat} (h : i < n) : (m.readBytes a n).getD i 0 = m.read (a + i) := by
  simp [Memory.readBytes, List.getD, h]

/-- Two memories that agree on a range give the same bytes there. -/
theorem readBytes_congr {m m' : Memory} {a n : Nat} (h : ∀ x, a ≤ x → x < a + n → m'.read x = m.read x) :
    m'.readBytes a n = m.readBytes a n :=
  List.map_congr_left fun i hi => h (a + i) (by omega) (by have := List.mem_range.mp hi; omega)

/-- The bytes just written are the bytes read back (R51). -/
theorem readBytes_writeBytes (m : Memory) (a : Nat) (bs : List Byte) :
    (m.writeBytes a bs).readBytes a bs.length = bs := by
  apply List.ext_getElem (by simp)
  intro i h1 h2
  simp only [Memory.readBytes, List.getElem_map, List.getElem_range]
  rw [read_writeBytes_inside h2]
  simp [List.getD, h2]

@[simp] theorem freeBytes_length (k n : Nat) : (freeBytes k n).length = n := by simp [freeBytes]

/-- A run of bytes is listed in rising order. -/
theorem cellsAt_pairwise (a : Nat) (bs : List Byte) : (cellsAt a bs).Pairwise (fun c d => c.1 < d.1) := by
  induction bs generalizing a with
  | nil => simp [cellsAt]
  | cons b bs ih =>
    rw [cellsAt]
    split
    · exact ih _
    · exact List.pairwise_cons.mpr ⟨fun d hd => by have := cellsAt_bounds hd; omega, ih _⟩

theorem wf_nil : Memory.wf [] := ⟨List.Pairwise.nil, by simp⟩

/-- Every write keeps the canonical form. -/
theorem writeBytes_wf {m : Memory} (h : m.wf) (a : Nat) (bs : List Byte) : (m.writeBytes a bs).wf := by
  have below : ∀ c ∈ m.filter (fun c => decide (c.1 < a)), c.1 < a := fun c hc => by
    simpa using (List.mem_filter.mp hc).2
  have above : ∀ c ∈ m.filter (fun c => decide (a + bs.length ≤ c.1)), a + bs.length ≤ c.1 := fun c hc => by
    simpa using (List.mem_filter.mp hc).2
  refine ⟨?_, ?_⟩
  · unfold Memory.writeBytes
    rw [List.pairwise_append, List.pairwise_append]
    refine ⟨⟨h.1.filter _, cellsAt_pairwise a bs, ?_⟩, h.1.filter _, ?_⟩
    · intro c hc d hd
      have := below c hc
      have := cellsAt_bounds hd
      omega
    · intro c hc d hd
      have := above d hd
      rcases List.mem_append.mp hc with hc | hc
      · have := below c hc
        omega
      · have := cellsAt_bounds hc
        omega
  · intro c hc
    unfold Memory.writeBytes at hc
    rcases List.mem_append.mp hc with hc | hc
    · rcases List.mem_append.mp hc with hc | hc
      · exact h.2 c (List.mem_filter.mp hc).1
      · exact (cellsAt_bounds hc).2.2
    · exact h.2 c (List.mem_filter.mp hc).1

/-- A host byte write keeps the canonical form. -/
theorem write_wf {m : Memory} (h : m.wf) (a : Nat) (b : Byte) : (m.write a b).wf := writeBytes_wf h a [b]

/-- A write inside the memory lists nothing beyond it. -/
theorem writeBytes_inside {m : Memory} {a size : Nat} {bs : List Byte} (h : ∀ c ∈ m, c.1 < size)
    (hr : bs.length = 0 ∨ a + bs.length ≤ size) : ∀ c ∈ m.writeBytes a bs, c.1 < size := by
  intro c hc
  unfold Memory.writeBytes at hc
  rcases List.mem_append.mp hc with hc | hc
  · rcases List.mem_append.mp hc with hc | hc
    · exact h c (List.mem_filter.mp hc).1
    · have := cellsAt_bounds hc
      omega
  · exact h c (List.mem_filter.mp hc).1

/-- The listing is determined by what it reads: equal memories are equal lists. -/
theorem memory_ext {m n : Memory} (hm : m.wf) (hn : n.wf) (h : ∀ x, m.read x = n.read x) : m = n := by
  induction m generalizing n with
  | nil =>
    cases n with
    | nil => rfl
    | cons d n =>
      have h0 := h d.1
      rw [read_cons d.1, if_pos rfl] at h0
      exact absurd h0.symm (hn.2 d (by simp))
  | cons c m ih =>
    have hm1 := List.pairwise_cons.mp hm.1
    have hmt : Memory.wf m := ⟨hm1.2, fun e he => hm.2 e (by simp [he])⟩
    cases n with
    | nil =>
      have h0 := h c.1
      rw [read_cons, if_pos rfl] at h0
      exact absurd h0 (hm.2 c (by simp))
    | cons d n =>
      have hn1 := List.pairwise_cons.mp hn.1
      have hnt : Memory.wf n := ⟨hn1.2, fun e he => hn.2 e (by simp [he])⟩
      have notIn : ∀ (k : Nat) (l : Memory), (∀ e ∈ l, k < e.1) → Memory.read l k = 0 := fun k l hl =>
        read_of_unlisted fun e he => by have := hl e he; omega
      have key : c.1 = d.1 := by
        rcases Nat.lt_trichotomy c.1 d.1 with hlt | heq | hgt
        · have h0 := h c.1
          rw [read_cons, if_pos rfl, notIn c.1 (d :: n) fun e he => by
            rcases List.mem_cons.mp he with rfl | he
            · exact hlt
            · exact Nat.lt_trans hlt (hn1.1 e he)] at h0
          exact absurd h0 (hm.2 c (by simp))
        · exact heq
        · have h0 := h d.1
          rw [read_cons d.1, if_pos rfl, notIn d.1 (c :: m) fun e he => by
            rcases List.mem_cons.mp he with rfl | he
            · exact hgt
            · exact Nat.lt_trans hgt (hm1.1 e he)] at h0
          exact absurd h0.symm (hn.2 d (by simp))
      have val : c.2 = d.2 := by
        have h0 := h c.1
        rwa [read_cons, if_pos rfl, read_cons, if_pos key.symm] at h0
      have tail : m = n := ih hmt hnt fun x => by
        have h0 := h x
        rw [read_cons, read_cons, ← key, ← val] at h0
        by_cases hx : c.1 = x
        · subst hx
          rw [notIn c.1 m hm1.1, notIn c.1 n fun e he => by have := hn1.1 e he; omega]
        · rwa [if_neg hx, if_neg hx] at h0
      rw [tail, Prod.ext key val]

end Sys2Proof.Machine
end

