-- ==== Sys2Proof/Laws/State.lean ====
section
/-! SUPPORT. One lemma per field per named update of State: the value an update gives the fields it writes, and that it
leaves every other field alone. -/

namespace Sys2Proof.Machine

@[simp] theorem completeOk_params (s : State) : s.completeOk.params = s.params := rfl
@[simp] theorem completeOk_status (s : State) : s.completeOk.status = Status.completed := rfl
@[simp] theorem completeOk_srcAddr (s : State) : s.completeOk.srcAddr = s.srcAddr := rfl
@[simp] theorem completeOk_srcLen (s : State) : s.completeOk.srcLen = s.srcLen := rfl
@[simp] theorem completeOk_dstAddr (s : State) : s.completeOk.dstAddr = s.dstAddr := rfl
@[simp] theorem completeOk_dstLen (s : State) : s.completeOk.dstLen = s.dstLen := rfl
@[simp] theorem completeOk_blkLo (s : State) : s.completeOk.blkLo = s.blkLo := rfl
@[simp] theorem completeOk_blkHi (s : State) : s.completeOk.blkHi = s.blkHi := rfl
@[simp] theorem completeOk_csum (s : State) : s.completeOk.csum = s.csum := rfl
@[simp] theorem completeOk_key (s : State) : s.completeOk.key = s.key := rfl
@[simp] theorem completeOk_iv (s : State) : s.completeOk.iv = s.iv := rfl
@[simp] theorem completeOk_pend (s : State) : s.completeOk.pend = s.pend := rfl
@[simp] theorem completeOk_hidden (s : State) : s.completeOk.hidden = s.hidden := rfl
@[simp] theorem completeOk_mem (s : State) : s.completeOk.mem = s.mem := rfl
@[simp] theorem completeOk_hfault (s : State) : s.completeOk.hfault = s.hfault := rfl
@[simp] theorem completeOk_events (s : State) : s.completeOk.events = s.events := rfl
@[simp] theorem completeOk_replies (s : State) : s.completeOk.replies = s.replies := rfl
@[simp] theorem completeOk_draws (s : State) : s.completeOk.draws = s.draws := rfl

@[simp] theorem raise_params (e : ErrKind) (s : State) : (s.raise e).params = s.params := rfl
@[simp] theorem raise_status (e : ErrKind) (s : State) : (s.raise e).status = Status.failed e := rfl
@[simp] theorem raise_srcAddr (e : ErrKind) (s : State) : (s.raise e).srcAddr = s.srcAddr := rfl
@[simp] theorem raise_srcLen (e : ErrKind) (s : State) : (s.raise e).srcLen = s.srcLen := rfl
@[simp] theorem raise_dstAddr (e : ErrKind) (s : State) : (s.raise e).dstAddr = s.dstAddr := rfl
@[simp] theorem raise_dstLen (e : ErrKind) (s : State) : (s.raise e).dstLen = 0 := rfl
@[simp] theorem raise_blkLo (e : ErrKind) (s : State) : (s.raise e).blkLo = s.blkLo := rfl
@[simp] theorem raise_blkHi (e : ErrKind) (s : State) : (s.raise e).blkHi = s.blkHi := rfl
@[simp] theorem raise_csum (e : ErrKind) (s : State) : (s.raise e).csum = s.csum := rfl
@[simp] theorem raise_key (e : ErrKind) (s : State) : (s.raise e).key = s.key := rfl
@[simp] theorem raise_iv (e : ErrKind) (s : State) : (s.raise e).iv = s.iv := rfl
@[simp] theorem raise_pend (e : ErrKind) (s : State) : (s.raise e).pend = s.pend := rfl
@[simp] theorem raise_hidden (e : ErrKind) (s : State) : (s.raise e).hidden = s.hidden := rfl
@[simp] theorem raise_mem (e : ErrKind) (s : State) : (s.raise e).mem = s.mem := rfl
@[simp] theorem raise_hfault (e : ErrKind) (s : State) : (s.raise e).hfault = s.hfault := rfl
@[simp] theorem raise_events (e : ErrKind) (s : State) : (s.raise e).events = s.events := rfl
@[simp] theorem raise_replies (e : ErrKind) (s : State) : (s.raise e).replies = s.replies := rfl
@[simp] theorem raise_draws (e : ErrKind) (s : State) : (s.raise e).draws = s.draws := rfl

@[simp] theorem startCommand_params (v : Word) (s : State) : (s.startCommand v).params = s.params := rfl
@[simp] theorem startCommand_status (v : Word) (s : State) : (s.startCommand v).status = Status.started := rfl
@[simp] theorem startCommand_srcAddr (v : Word) (s : State) : (s.startCommand v).srcAddr = s.srcAddr := rfl
@[simp] theorem startCommand_srcLen (v : Word) (s : State) : (s.startCommand v).srcLen = s.srcLen := rfl
@[simp] theorem startCommand_dstAddr (v : Word) (s : State) : (s.startCommand v).dstAddr = s.dstAddr := rfl
@[simp] theorem startCommand_dstLen (v : Word) (s : State) : (s.startCommand v).dstLen = s.dstLen := rfl
@[simp] theorem startCommand_blkLo (v : Word) (s : State) : (s.startCommand v).blkLo = s.blkLo := rfl
@[simp] theorem startCommand_blkHi (v : Word) (s : State) : (s.startCommand v).blkHi = s.blkHi := rfl
@[simp] theorem startCommand_csum (v : Word) (s : State) : (s.startCommand v).csum = s.csum := rfl
@[simp] theorem startCommand_key (v : Word) (s : State) : (s.startCommand v).key = s.key := rfl
@[simp] theorem startCommand_iv (v : Word) (s : State) : (s.startCommand v).iv = s.iv := rfl
@[simp] theorem startCommand_pend (v : Word) (s : State) : (s.startCommand v).pend = v := rfl
@[simp] theorem startCommand_hidden (v : Word) (s : State) : (s.startCommand v).hidden = s.hidden := rfl
@[simp] theorem startCommand_mem (v : Word) (s : State) : (s.startCommand v).mem = s.mem := rfl
@[simp] theorem startCommand_hfault (v : Word) (s : State) : (s.startCommand v).hfault = s.hfault := rfl
@[simp] theorem startCommand_events (v : Word) (s : State) : (s.startCommand v).events = s.events := rfl
@[simp] theorem startCommand_replies (v : Word) (s : State) : (s.startCommand v).replies = s.replies := rfl
@[simp] theorem startCommand_draws (v : Word) (s : State) : (s.startCommand v).draws = s.draws := rfl

@[simp] theorem markFault_params (s : State) : s.markFault.params = s.params := rfl
@[simp] theorem markFault_status (s : State) : s.markFault.status = s.status := rfl
@[simp] theorem markFault_srcAddr (s : State) : s.markFault.srcAddr = s.srcAddr := rfl
@[simp] theorem markFault_srcLen (s : State) : s.markFault.srcLen = s.srcLen := rfl
@[simp] theorem markFault_dstAddr (s : State) : s.markFault.dstAddr = s.dstAddr := rfl
@[simp] theorem markFault_dstLen (s : State) : s.markFault.dstLen = s.dstLen := rfl
@[simp] theorem markFault_blkLo (s : State) : s.markFault.blkLo = s.blkLo := rfl
@[simp] theorem markFault_blkHi (s : State) : s.markFault.blkHi = s.blkHi := rfl
@[simp] theorem markFault_csum (s : State) : s.markFault.csum = s.csum := rfl
@[simp] theorem markFault_key (s : State) : s.markFault.key = s.key := rfl
@[simp] theorem markFault_iv (s : State) : s.markFault.iv = s.iv := rfl
@[simp] theorem markFault_pend (s : State) : s.markFault.pend = s.pend := rfl
@[simp] theorem markFault_hidden (s : State) : s.markFault.hidden = s.hidden := rfl
@[simp] theorem markFault_mem (s : State) : s.markFault.mem = s.mem := rfl
@[simp] theorem markFault_hfault (s : State) : s.markFault.hfault = true := rfl
@[simp] theorem markFault_events (s : State) : s.markFault.events = s.events := rfl
@[simp] theorem markFault_replies (s : State) : s.markFault.replies = s.replies := rfl
@[simp] theorem markFault_draws (s : State) : s.markFault.draws = s.draws := rfl

@[simp] theorem reply_params (r : Reply) (s : State) : (s.reply r).params = s.params := rfl
@[simp] theorem reply_status (r : Reply) (s : State) : (s.reply r).status = s.status := rfl
@[simp] theorem reply_srcAddr (r : Reply) (s : State) : (s.reply r).srcAddr = s.srcAddr := rfl
@[simp] theorem reply_srcLen (r : Reply) (s : State) : (s.reply r).srcLen = s.srcLen := rfl
@[simp] theorem reply_dstAddr (r : Reply) (s : State) : (s.reply r).dstAddr = s.dstAddr := rfl
@[simp] theorem reply_dstLen (r : Reply) (s : State) : (s.reply r).dstLen = s.dstLen := rfl
@[simp] theorem reply_blkLo (r : Reply) (s : State) : (s.reply r).blkLo = s.blkLo := rfl
@[simp] theorem reply_blkHi (r : Reply) (s : State) : (s.reply r).blkHi = s.blkHi := rfl
@[simp] theorem reply_csum (r : Reply) (s : State) : (s.reply r).csum = s.csum := rfl
@[simp] theorem reply_key (r : Reply) (s : State) : (s.reply r).key = s.key := rfl
@[simp] theorem reply_iv (r : Reply) (s : State) : (s.reply r).iv = s.iv := rfl
@[simp] theorem reply_pend (r : Reply) (s : State) : (s.reply r).pend = s.pend := rfl
@[simp] theorem reply_hidden (r : Reply) (s : State) : (s.reply r).hidden = s.hidden := rfl
@[simp] theorem reply_mem (r : Reply) (s : State) : (s.reply r).mem = s.mem := rfl
@[simp] theorem reply_hfault (r : Reply) (s : State) : (s.reply r).hfault = s.hfault := rfl
@[simp] theorem reply_events (r : Reply) (s : State) : (s.reply r).events = s.events := rfl
@[simp] theorem reply_replies (r : Reply) (s : State) : (s.reply r).replies = r :: s.replies := rfl
@[simp] theorem reply_draws (r : Reply) (s : State) : (s.reply r).draws = s.draws := rfl

@[simp] theorem scramble_params (r : Range) (s : State) : (s.scramble r).params = s.params := rfl
@[simp] theorem scramble_status (r : Range) (s : State) : (s.scramble r).status = s.status := rfl
@[simp] theorem scramble_srcAddr (r : Range) (s : State) : (s.scramble r).srcAddr = s.srcAddr := rfl
@[simp] theorem scramble_srcLen (r : Range) (s : State) : (s.scramble r).srcLen = s.srcLen := rfl
@[simp] theorem scramble_dstAddr (r : Range) (s : State) : (s.scramble r).dstAddr = s.dstAddr := rfl
@[simp] theorem scramble_dstLen (r : Range) (s : State) : (s.scramble r).dstLen = s.dstLen := rfl
@[simp] theorem scramble_blkLo (r : Range) (s : State) : (s.scramble r).blkLo = s.blkLo := rfl
@[simp] theorem scramble_blkHi (r : Range) (s : State) : (s.scramble r).blkHi = s.blkHi := rfl
@[simp] theorem scramble_csum (r : Range) (s : State) : (s.scramble r).csum = s.csum := rfl
@[simp] theorem scramble_key (r : Range) (s : State) : (s.scramble r).key = s.key := rfl
@[simp] theorem scramble_iv (r : Range) (s : State) : (s.scramble r).iv = s.iv := rfl
@[simp] theorem scramble_pend (r : Range) (s : State) : (s.scramble r).pend = s.pend := rfl
@[simp] theorem scramble_hidden (r : Range) (s : State) : (s.scramble r).hidden = s.hidden := rfl
@[simp] theorem scramble_mem (r : Range) (s : State) :
    (s.scramble r).mem = s.mem.writeBytes r.base (freeBytes s.draws r.len) := rfl
@[simp] theorem scramble_hfault (r : Range) (s : State) : (s.scramble r).hfault = s.hfault := rfl
@[simp] theorem scramble_events (r : Range) (s : State) : (s.scramble r).events = s.events := rfl
@[simp] theorem scramble_replies (r : Range) (s : State) : (s.scramble r).replies = s.replies := rfl
@[simp] theorem scramble_draws (r : Range) (s : State) : (s.scramble r).draws = s.draws + r.len := rfl

@[simp] theorem resetDomain_params (s : State) : s.resetDomain.params = s.params := rfl
@[simp] theorem resetDomain_status (s : State) : s.resetDomain.status = Status.afterReset := rfl
@[simp] theorem resetDomain_srcAddr (s : State) : s.resetDomain.srcAddr = 0 := rfl
@[simp] theorem resetDomain_srcLen (s : State) : s.resetDomain.srcLen = 0 := rfl
@[simp] theorem resetDomain_dstAddr (s : State) : s.resetDomain.dstAddr = 0 := rfl
@[simp] theorem resetDomain_dstLen (s : State) : s.resetDomain.dstLen = 0 := rfl
@[simp] theorem resetDomain_blkLo (s : State) : s.resetDomain.blkLo = 0 := rfl
@[simp] theorem resetDomain_blkHi (s : State) : s.resetDomain.blkHi = 0 := rfl
@[simp] theorem resetDomain_csum (s : State) : s.resetDomain.csum = 0 := rfl
@[simp] theorem resetDomain_key (s : State) : s.resetDomain.key = keyOfBytes s.params.defaultKey.toList := rfl
@[simp] theorem resetDomain_iv (s : State) : s.resetDomain.iv = 0 := rfl
@[simp] theorem resetDomain_pend (s : State) : s.resetDomain.pend = Config.freeWord s.draws := rfl
@[simp] theorem resetDomain_hidden (s : State) : s.resetDomain.hidden = Hidden.blank := rfl
@[simp] theorem resetDomain_mem (s : State) : s.resetDomain.mem = s.mem := rfl
@[simp] theorem resetDomain_hfault (s : State) : s.resetDomain.hfault = s.hfault := rfl
@[simp] theorem resetDomain_events (s : State) : s.resetDomain.events = s.events := rfl
@[simp] theorem resetDomain_replies (s : State) : s.resetDomain.replies = s.replies := rfl
@[simp] theorem resetDomain_draws (s : State) : s.resetDomain.draws = s.draws + 1 := rfl

@[simp] theorem withoutHidden_params (s : State) : s.withoutHidden.params = s.params := rfl
@[simp] theorem withoutHidden_status (s : State) : s.withoutHidden.status = s.status := rfl
@[simp] theorem withoutHidden_srcAddr (s : State) : s.withoutHidden.srcAddr = s.srcAddr := rfl
@[simp] theorem withoutHidden_srcLen (s : State) : s.withoutHidden.srcLen = s.srcLen := rfl
@[simp] theorem withoutHidden_dstAddr (s : State) : s.withoutHidden.dstAddr = s.dstAddr := rfl
@[simp] theorem withoutHidden_dstLen (s : State) : s.withoutHidden.dstLen = s.dstLen := rfl
@[simp] theorem withoutHidden_blkLo (s : State) : s.withoutHidden.blkLo = s.blkLo := rfl
@[simp] theorem withoutHidden_blkHi (s : State) : s.withoutHidden.blkHi = s.blkHi := rfl
@[simp] theorem withoutHidden_csum (s : State) : s.withoutHidden.csum = s.csum := rfl
@[simp] theorem withoutHidden_key (s : State) : s.withoutHidden.key = s.key := rfl
@[simp] theorem withoutHidden_iv (s : State) : s.withoutHidden.iv = s.iv := rfl
@[simp] theorem withoutHidden_pend (s : State) : s.withoutHidden.pend = s.pend := rfl
@[simp] theorem withoutHidden_hidden (s : State) : s.withoutHidden.hidden = Hidden.blank := rfl
@[simp] theorem withoutHidden_mem (s : State) : s.withoutHidden.mem = s.mem := rfl
@[simp] theorem withoutHidden_hfault (s : State) : s.withoutHidden.hfault = s.hfault := rfl
@[simp] theorem withoutHidden_events (s : State) : s.withoutHidden.events = s.events := rfl
@[simp] theorem withoutHidden_replies (s : State) : s.withoutHidden.replies = s.replies := rfl
@[simp] theorem withoutHidden_draws (s : State) : s.withoutHidden.draws = s.draws := rfl

@[simp] theorem completed_busy : Status.completed.busy = false := rfl
@[simp] theorem completed_done : Status.completed.done = true := rfl
@[simp] theorem completed_err : Status.completed.err = false := rfl
@[simp] theorem completed_errCode : Status.completed.errCode = 0 := rfl

@[simp] theorem failed_busy (e : ErrKind) : (Status.failed e).busy = false := rfl
@[simp] theorem failed_done (e : ErrKind) : (Status.failed e).done = true := rfl
@[simp] theorem failed_err (e : ErrKind) : (Status.failed e).err = true := rfl
@[simp] theorem failed_errCode (e : ErrKind) : (Status.failed e).errCode = e.code := rfl

theorem completed_legal : Status.completed.Legal := by decide

theorem failed_legal (e : ErrKind) : (Status.failed e).Legal := by cases e <;> decide

theorem started_legal : Status.started.Legal := by decide

theorem afterReset_legal : Status.afterReset.Legal := by decide

/-- Two states that agree but for the hidden state. -/
theorem withoutHidden_with_hidden (s : State) (h : Hidden) :
    State.withoutHidden { s with hidden := h } = s.withoutHidden := rfl

end Sys2Proof.Machine
end

