-- ==== Sys2Proof/Laws/StreamEngine.lean ====
section
/-! SUPPORT. The pure functions: lengths of framed payloads, one round against its inverse, the block loop, and the
ranges of the hidden counters. -/

namespace Sys2Proof.Machine

/-! ## Rounds -/

@[simp] theorem repeatRound_zero (f : RoundState → RoundState) (r : RoundState) : repeatRound f 0 r = r := rfl

/-- `repeatRound` is function iteration. -/
theorem repeatRound_iterate (f : RoundState → RoundState) (n : Nat) (r : RoundState) :
    repeatRound f n r = f^[n] r := by
  induction n generalizing r with
  | zero => rfl
  | succ n ih => rw [Function.iterate_succ_apply, ← ih]; rfl

/-- The last of `n + 1` rounds, taken off at the end. -/
theorem repeatRound_succ (f : RoundState → RoundState) (n : Nat) (r : RoundState) :
    repeatRound f (n + 1) r = f (repeatRound f n r) := by
  induction n generalizing r with
  | zero => rfl
  | succ n ih => rw [repeatRound, ih]; rfl

/-- A decryption round subtracts exactly the terms the encryption round added (R100, R101). -/
theorem decryptRound_encryptRound (delta : Word) (k : Key) (r : RoundState) :
    decryptRound delta k (encryptRound delta k r) = { r with rnd := r.rnd + 1 + 1 } := by
  simp [decryptRound, encryptRound]

/-- An encryption round adds exactly the terms the decryption round subtracted (R100, R101). -/
theorem encryptRound_decryptRound (delta : Word) (k : Key) (r : RoundState) :
    encryptRound delta k (decryptRound delta k r) = { r with rnd := r.rnd + 1 + 1 } := by
  simp [decryptRound, encryptRound]

/-- A round counts itself and looks at no counter (R35). -/
theorem encryptRound_rnd (delta : Word) (k : Key) (r : RoundState) (n : BitVec 6) :
    encryptRound delta k { r with rnd := n } = { encryptRound delta k r with rnd := n + 1 } := rfl

@[inherit_doc encryptRound_rnd] theorem decryptRound_rnd (delta : Word) (k : Key) (r : RoundState) (n : BitVec 6) :
    decryptRound delta k { r with rnd := n } = { decryptRound delta k r with rnd := n + 1 } := rfl

/-- `RND` counts the rounds done (R35). -/
theorem repeatRound_rnd {f : RoundState → RoundState} (hf : ∀ r, (f r).rnd = r.rnd + 1) (n : Nat) (r : RoundState) :
    (repeatRound f n r).rnd = r.rnd + BitVec.ofNat 6 n := by
  induction n generalizing r with
  | zero => simp
  | succ n ih =>
    rw [repeatRound, ih, hf]
    apply BitVec.eq_of_toNat_eq
    have one : BitVec.toNat (1 : BitVec 6) = 1 := rfl
    simp only [BitVec.toNat_add, BitVec.toNat_ofNat, one]
    omega

theorem encryptRounds_rnd (delta low high : Word) (k : Key) : (encryptRounds delta low high k).rnd.toNat = 32 := by
  rw [encryptRounds, repeatRound_rnd fun _ => rfl]; rfl

theorem decryptRounds_rnd (delta low high : Word) (k : Key) : (decryptRounds delta low high k).rnd.toNat = 32 := by
  rw [decryptRounds, repeatRound_rnd fun _ => rfl]; rfl

/-- `EncryptBlock` and `DecryptBlock` are the block words of the last round state (R100, R101). -/
theorem encryptBlock_eq (delta low high : Word) (k : Key) :
    encryptBlock delta low high k = ((encryptRounds delta low high k).low, (encryptRounds delta low high k).high) := rfl

@[inherit_doc encryptBlock_eq] theorem decryptBlock_eq (delta low high : Word) (k : Key) :
    decryptBlock delta low high k = ((decryptRounds delta low high k).low, (decryptRounds delta low high k).high) := rfl

/-! ## Framing -/

/-- `FramedLen` without its two roundings. -/
theorem framedLen_eq (l : Nat) : framedLen l = ((l + 3) / 4 * 4 + 4 + 7) / 8 * 8 := rfl

/-- `PadFrame`'s padding is `PadLen` zero bytes (R121, R122). -/
theorem padBody_eq (p : List Byte) : padBody p = p ++ zeros (padLen p.length) := by
  have hz : ∀ a b : Nat, zeros a ++ zeros b = zeros (a + b) := fun a b => by simp [zeros]
  unfold padBody
  simp only [List.length_append, zeros_length]
  split
  · rw [List.append_assoc, hz]
    congr 2
    rw [padLen, framedLen_eq]
    omega
  · congr 2
    rw [padLen, framedLen_eq]
    omega

theorem padLen_add (l : Nat) : l + padLen l + 4 = framedLen l := by rw [padLen, framedLen_eq]; omega

theorem framedLen_mod (l : Nat) : framedLen l % 8 = 0 := by rw [framedLen_eq]; omega

theorem framedLen_ge (l : Nat) : 8 ≤ framedLen l := by rw [framedLen_eq]; omega

theorem framedLen_gt (l : Nat) : l + 4 ≤ framedLen l := by have := padLen_add l; omega

@[simp] theorem padFrame_length (p : List Byte) : (padFrame p).length = framedLen p.length := by
  rw [← padLen_add]
  simp [padFrame, padBody_eq]
  omega

/-- The claimed checksum of a framed payload, and its body (R123). -/
theorem framedBody_append (body tail : List Byte) (h : tail.length = 4) : framedBody (body ++ tail) = body := by
  simp [framedBody, h]

theorem le32_append_right (body tail : List Byte) : le32 (body ++ tail) body.length = le32 tail 0 := by
  simp [le32, List.getD, List.getElem?_append_right]

/-- `UnframeVerify` answers IntegrityError or the body (R123). -/
theorem unframeVerify_cases (f : List Byte) :
    unframeVerify f = .error .integrityError ∨
    (4 ≤ f.length ∧ unframeVerify f = .ok (framedBody f)) := by
  unfold unframeVerify
  split
  · exact .inl rfl
  · split
    · exact .inl rfl
    · exact .inr ⟨by omega, rfl⟩

theorem framedBody_length (f : List Byte) : (framedBody f).length = f.length - 4 := by
  simp [framedBody]

/-! ## The block loop -/

@[simp] theorem runBlocks_nil (next : Hidden → Block → Hidden × Block) (h : Hidden) : runBlocks next h [] = (h, []) :=
  rfl

theorem runBlocks_cons (next : Hidden → Block → Hidden × Block) (h : Hidden) (b : Block) (bs : List Block) :
    runBlocks next h (b :: bs) =
      ((runBlocks next (next h b).1 bs).1, (next h b).2 :: (runBlocks next (next h b).1 bs).2) := rfl

@[simp] theorem runBlocks_length (next : Hidden → Block → Hidden × Block) (h : Hidden) (bs : List Block) :
    (runBlocks next h bs).2.length = bs.length := by
  induction bs generalizing h with
  | nil => rfl
  | cons b bs ih => rw [runBlocks_cons]; simp [ih]

/-- The block loop over two stretches of blocks, one after the other. -/
theorem runBlocks_append (next : Hidden → Block → Hidden × Block) (h : Hidden) (as bs : List Block) :
    runBlocks next h (as ++ bs) =
      ((runBlocks next (runBlocks next h as).1 bs).1,
        (runBlocks next h as).2 ++ (runBlocks next (runBlocks next h as).1 bs).2) := by
  induction as generalizing h with
  | nil => rfl
  | cons a as ih => rw [List.cons_append, runBlocks_cons, ih, runBlocks_cons]; rfl

/-- What one block leaves, whichever the direction, is what the block loop keeps (an induction over the blocks). -/
theorem runBlocks_keeps {next : Hidden → Block → Hidden × Block} {P : Hidden → Prop}
    (keep : ∀ h b, P h → P (next h b).1) {h : Hidden} (h0 : P h) (bs : List Block) : P (runBlocks next h bs).1 := by
  induction bs generalizing h with
  | nil => exact h0
  | cons b bs ih => rw [runBlocks_cons]; exact ih (keep h b h0)

/-- Output block `n` is block `n` in the hidden state the blocks before it left. -/
theorem runBlocks_get (next : Hidden → Block → Hidden × Block) (h : Hidden) (bs : List Block) (n : Nat)
    (hn : n < bs.length) :
    (runBlocks next h bs).2.getD n 0 = (next (runBlocks next h (bs.take n)).1 (bs.getD n 0)).2 := by
  induction bs generalizing h n with
  | nil => simp at hn
  | cons b bs ih =>
    rw [runBlocks_cons]
    match n with
    | 0 => rfl
    | n + 1 =>
      simp only [List.getD_cons_succ, List.take_succ_cons, runBlocks_cons]
      exact ih _ n (by simpa using hn)

/-- One block more: what it leaves. -/
theorem runBlocks_take_succ (next : Hidden → Block → Hidden × Block) (h : Hidden) (bs : List Block) (n : Nat)
    (hn : n < bs.length) :
    (runBlocks next h (bs.take (n + 1))).1 = (next (runBlocks next h (bs.take n)).1 (bs.getD n 0)).1 := by
  have : bs.take (n + 1) = bs.take n ++ [bs.getD n 0] := by
    rw [List.take_succ_eq_append_getElem hn]
    simp [List.getD, hn]
  rw [this, runBlocks_append]
  rfl

/-- The ratchet keeps `BCNT` a multiple of 8 below 1024 (R125). -/
theorem ratchet_bcnt {c : Cursor} (h : c.bcnt.toNat ≤ 1024 ∧ c.bcnt.toNat % 8 = 0) :
    (ratchet c).bcnt.toNat + 8 ≤ 1024 ∧ (ratchet c).bcnt.toNat % 8 = 0 := by
  unfold ratchet
  split
  · simp
  · have : c.bcnt.toNat ≠ 1024 := by assumption
    omega

@[simp] theorem ratchet_cv (c : Cursor) : (ratchet c).cv = c.cv := by unfold ratchet; split <;> rfl

theorem advance_bcnt {c : Cursor} (h : c.bcnt.toNat + 8 ≤ 1024) (v : Block) :
    (c.advance v).bcnt.toNat = c.bcnt.toNat + 8 := by
  have eight : BitVec.toNat (8 : BitVec 11) = 8 := rfl
  simp only [Cursor.advance, BitVec.toNat_add, eight]
  omega

theorem blank_legal : Hidden.blank.Legal := by decide

theorem start_legal (key : Key) (iv : Block) : (Hidden.start key iv).Legal :=
  ⟨Nat.zero_le _, rfl, Nat.zero_le _⟩

theorem encryptNext_legal (delta : Word) (h : Hidden) (b : Block) (hh : h.Legal) : (encryptNext delta h b).1.Legal := by
  have hr := ratchet_bcnt ⟨hh.1, hh.2.1⟩
  have ha := advance_bcnt hr.1
  refine ⟨?_, ?_, ?_⟩
  · simp only [encryptNext, ha]; exact hr.1
  · simp only [encryptNext, ha]; omega
  · exact Nat.le_of_eq (encryptRounds_rnd _ _ _ _)

theorem decryptNext_legal (delta : Word) (h : Hidden) (b : Block) (hh : h.Legal) : (decryptNext delta h b).1.Legal := by
  have hr := ratchet_bcnt ⟨hh.1, hh.2.1⟩
  have ha := advance_bcnt hr.1
  refine ⟨?_, ?_, ?_⟩
  · simp only [decryptNext, ha]; exact hr.1
  · simp only [decryptNext, ha]; omega
  · exact Nat.le_of_eq (decryptRounds_rnd _ _ _ _)

theorem encryptHidden_legal (delta : Word) (p : List Byte) (key : Key) (iv : Block) :
    (encryptHidden delta p key iv).Legal :=
  runBlocks_keeps (P := Hidden.Legal) (encryptNext_legal delta) (start_legal key iv) _

theorem decryptHidden_legal (delta : Word) (c : List Byte) (key : Key) (iv : Block) :
    (decryptHidden delta c key iv).Legal :=
  runBlocks_keeps (P := Hidden.Legal) (decryptNext_legal delta) (start_legal key iv) _

/-! ## The streams -/

@[simp] theorem encryptStream_length (delta : Word) (p : List Byte) (key : Key) (iv : Block) :
    (encryptStream delta p key iv).length = framedLen p.length := by
  have := framedLen_mod p.length
  simp only [encryptStream, encryptRun, bytesOfBlocks_length, runBlocks_length, blocksOf_length, padFrame_length]
  omega

theorem decryptFramed_length (delta : Word) (c : List Byte) (key : Key) (iv : Block) :
    (decryptFramed delta c key iv).length = 8 * (c.length / 8) := by
  simp [decryptFramed, decryptRun]

/-- What `DecryptStream` can answer: a FormatError on the length, else IntegrityError or a body 4 bytes shorter than the
ciphertext (R128). -/
theorem decryptStream_cases (delta : Word) (c : List Byte) (key : Key) (iv : Block) :
    ((c.length = 0 ∨ c.length % 8 ≠ 0) ∧ decryptStream delta c key iv = .error .formatError) ∨
    (c.length ≠ 0 ∧ c.length % 8 = 0 ∧
      (decryptStream delta c key iv = .error .integrityError ∨
        ∃ p, p.length = c.length - 4 ∧ decryptStream delta c key iv = .ok p)) := by
  by_cases h : c.length = 0 ∨ c.length % 8 ≠ 0
  · exact .inl ⟨h, by rw [decryptStream, if_pos h]⟩
  · refine .inr ⟨by omega, by omega, ?_⟩
    rw [decryptStream, if_neg h]
    rcases unframeVerify_cases (decryptFramed delta c key iv) with e | ⟨_, e⟩
    · exact .inl e
    · exact .inr ⟨_, by rw [framedBody_length, decryptFramed_length]; omega, e⟩

end Sys2Proof.Machine
end

