-- ==== Sys2Proof/Laws/Commands.lean ====
section
/-! SUPPORT. What each command can do, said once: the state it answers in each of its cases, the cases covering all
states. Later proofs cite these and unfold no meaning. -/

namespace Sys2Proof.Machine

/-- What ENCRYPT leaves when it completes (R130). -/
def encrypted (s : State) : State :=
  let p := s.bytesIn (inputRange .encrypt s)
  State.completeOk
    { s with
      mem := s.mem.writeBytes s.dstAddr.toNat (encryptStream s.params.delta p s.key s.iv)
      dstLen := BitVec.ofNat 32 (framedLen s.srcLen.toNat)
      hidden := encryptHidden s.params.delta p s.key s.iv }

/-- What DECRYPT leaves when the body `p` verifies (R131). -/
def decrypted (s : State) (p : List Byte) : State :=
  State.completeOk
    { s with
      mem := s.mem.writeBytes s.dstAddr.toNat p
      dstLen := BitVec.ofNat 32 (s.srcLen.toNat - 4)
      hidden := decryptHidden s.params.delta (s.bytesIn (inputRange .decrypt s)) s.key s.iv }

/-- What DECRYPT leaves when the checksum does not match (R208). -/
def unverified (s : State) : State :=
  (State.scramble (outputRange .decrypt s)
    { s with hidden := decryptHidden s.params.delta (s.bytesIn (inputRange .decrypt s)) s.key s.iv }).raise
    .integrityError

/-- What ENCBLK leaves (R104). -/
def blockEncrypted (s : State) : State :=
  State.completeOk
    { s with
      blkLo := (encryptBlock s.params.delta s.blkLo s.blkHi s.key).1
      blkHi := (encryptBlock s.params.delta s.blkLo s.blkHi s.key).2
      hidden := { s.hidden with round := encryptRounds s.params.delta s.blkLo s.blkHi s.key } }

/-- What DECBLK leaves (R105). -/
def blockDecrypted (s : State) : State :=
  State.completeOk
    { s with
      blkLo := (decryptBlock s.params.delta s.blkLo s.blkHi s.key).1
      blkHi := (decryptBlock s.params.delta s.blkLo s.blkHi s.key).2
      hidden := { s.hidden with round := decryptRounds s.params.delta s.blkLo s.blkHi s.key } }

theorem execEncblk_next (s : State) : execEncblk s = .next (blockEncrypted s) := rfl

theorem execDecblk_next (s : State) : execDecblk s = .next (blockDecrypted s) := rfl

theorem execCfgDefault_next (s : State) :
    execCfgDefault s =
      .next (State.completeOk { s with key := keyOfBytes s.params.defaultKey.toList, iv := 0 }) := rfl

theorem execCfgKey_cases (s : State) :
    (s.srcLen.toNat ≠ keyBytes ∧ execCfgKey s = .next (s.raise .configError)) ∨
    (s.srcLen.toNat = keyBytes ∧ ¬ (inputRange .cfgKey s).Valid s.params.memBytes ∧
      execCfgKey s = .next (s.raise .addrError)) ∨
    (s.srcLen.toNat = keyBytes ∧ (inputRange .cfgKey s).Valid s.params.memBytes ∧
      execCfgKey s = .next (State.completeOk { s with key := keyOfBytes (s.bytesIn (inputRange .cfgKey s)) })) := by
  unfold execCfgKey
  by_cases h1 : s.srcLen.toNat ≠ keyBytes
  · exact .inl ⟨h1, by simp only [if_pos h1]⟩
  · by_cases h2 : (inputRange .cfgKey s).Valid s.params.memBytes
    · exact .inr (.inr ⟨not_not.mp h1, h2, by simp only [if_neg h1, if_neg (not_not.mpr h2)]⟩)
    · exact .inr (.inl ⟨not_not.mp h1, h2, by simp only [if_neg h1, if_pos h2]⟩)

theorem execCfgIv_cases (s : State) :
    (s.srcLen.toNat ≠ ivBytes ∧ execCfgIv s = .next (s.raise .configError)) ∨
    (s.srcLen.toNat = ivBytes ∧ ¬ (inputRange .cfgIv s).Valid s.params.memBytes ∧
      execCfgIv s = .next (s.raise .addrError)) ∨
    (s.srcLen.toNat = ivBytes ∧ (inputRange .cfgIv s).Valid s.params.memBytes ∧
      execCfgIv s = .next (State.completeOk { s with iv := le64 (s.bytesIn (inputRange .cfgIv s)) 0 })) := by
  unfold execCfgIv
  by_cases h1 : s.srcLen.toNat ≠ ivBytes
  · exact .inl ⟨h1, by simp only [if_pos h1]⟩
  · by_cases h2 : (inputRange .cfgIv s).Valid s.params.memBytes
    · exact .inr (.inr ⟨not_not.mp h1, h2, by simp only [if_neg h1, if_neg (not_not.mpr h2)]⟩)
    · exact .inr (.inl ⟨not_not.mp h1, h2, by simp only [if_neg h1, if_pos h2]⟩)

theorem execChecksum_cases (s : State) :
    (s.srcLen.toNat % 4 ≠ 0 ∧ execChecksum s = .next (s.raise .formatError)) ∨
    (s.srcLen.toNat % 4 = 0 ∧ ¬ (inputRange .checksum s).Valid s.params.memBytes ∧
      execChecksum s = .next (s.raise .addrError)) ∨
    (s.srcLen.toNat % 4 = 0 ∧ (inputRange .checksum s).Valid s.params.memBytes ∧
      execChecksum s =
        .next (State.completeOk
          { s with
            csum := checksum (s.bytesIn (inputRange .checksum s))
            hidden := { s.hidden with acc := checksumAcc (s.bytesIn (inputRange .checksum s)) } })) := by
  unfold execChecksum
  by_cases h1 : s.srcLen.toNat % 4 ≠ 0
  · exact .inl ⟨h1, by simp only [if_pos h1]⟩
  · by_cases h2 : (inputRange .checksum s).Valid s.params.memBytes
    · exact .inr (.inr ⟨not_not.mp h1, h2, by simp only [if_neg h1, if_neg (not_not.mpr h2)]⟩)
    · exact .inr (.inl ⟨not_not.mp h1, h2, by simp only [if_neg h1, if_pos h2]⟩)

theorem execEncrypt_cases (s : State) :
    (¬ rangesUsable s.params.memBytes (inputRange .encrypt s) (outputRange .encrypt s) ∧
      execEncrypt s = .next (s.raise .addrError)) ∨
    (rangesUsable s.params.memBytes (inputRange .encrypt s) (outputRange .encrypt s) ∧
      execEncrypt s = .next (encrypted s)) := by
  unfold execEncrypt
  by_cases h1 : rangesUsable s.params.memBytes (inputRange .encrypt s) (outputRange .encrypt s)
  · exact .inr ⟨h1, by simp only [if_neg (not_not.mpr h1)]; rfl⟩
  · exact .inl ⟨h1, by simp only [if_pos h1]⟩

theorem execDecrypt_cases (s : State) :
    ((s.srcLen.toNat = 0 ∨ s.srcLen.toNat % 8 ≠ 0) ∧ execDecrypt s = .next (s.raise .formatError)) ∨
    ((s.srcLen.toNat ≠ 0 ∧ s.srcLen.toNat % 8 = 0) ∧
      ((¬ rangesUsable s.params.memBytes (inputRange .decrypt s) (outputRange .decrypt s) ∧
          execDecrypt s = .next (s.raise .addrError)) ∨
        (rangesUsable s.params.memBytes (inputRange .decrypt s) (outputRange .decrypt s) ∧
          ((∃ p, p.length = s.srcLen.toNat - 4 ∧
              decryptStream s.params.delta (s.bytesIn (inputRange .decrypt s)) s.key s.iv = .ok p ∧
              execDecrypt s = .next (decrypted s p)) ∨
            (decryptStream s.params.delta (s.bytesIn (inputRange .decrypt s)) s.key s.iv = .error .integrityError ∧
              execDecrypt s = .next (unverified s)))))) := by
  unfold execDecrypt
  by_cases h1 : s.srcLen.toNat = 0 ∨ s.srcLen.toNat % 8 ≠ 0
  · exact .inl ⟨h1, by simp only [if_pos h1]⟩
  · refine .inr ⟨by omega, ?_⟩
    by_cases h2 : rangesUsable s.params.memBytes (inputRange .decrypt s) (outputRange .decrypt s)
    · refine .inr ⟨h2, ?_⟩
      have hl : (s.bytesIn (inputRange .decrypt s)).length = s.srcLen.toNat := readBytes_length _ _ _
      rcases decryptStream_cases s.params.delta (s.bytesIn (inputRange .decrypt s)) s.key s.iv with
        ⟨hf, _⟩ | ⟨_, _, he | ⟨p, hp, he⟩⟩
      · exact absurd (hl ▸ hf) h1
      · exact .inr ⟨he, by simp only [if_neg h1, if_neg (not_not.mpr h2), he]; rfl⟩
      · exact .inl ⟨p, by rw [hp, hl], he, by simp only [if_neg h1, if_neg (not_not.mpr h2), he]; rfl⟩
    · exact .inl ⟨h2, by simp only [if_neg h1, if_pos h2]⟩

/-- The forms a completed command can leave: an error that changes nothing else, or the command's own result. -/
inductive Completes : Instr → State → State → Prop where
  | error (i : Instr) (s : State) (e : ErrKind) (h : e ≠ .integrityError) : Completes i s (s.raise e)
  | cfgKey (s : State) (k : Key) : Completes .cfgKey s (State.completeOk { s with key := k })
  | cfgIv (s : State) (v : Block) : Completes .cfgIv s (State.completeOk { s with iv := v })
  | cfgDefault (s : State) (k : Key) (v : Block) :
      Completes .cfgDefault s (State.completeOk { s with key := k, iv := v })
  | checksum (s : State) (w a : Word) :
      Completes .checksum s (State.completeOk { s with csum := w, hidden := { s.hidden with acc := a } })
  | encblk (s : State) : Completes .encblk s (blockEncrypted s)
  | decblk (s : State) : Completes .decblk s (blockDecrypted s)
  | encrypt (s : State) (h : rangesUsable s.params.memBytes (inputRange .encrypt s) (outputRange .encrypt s)) :
      Completes .encrypt s (encrypted s)
  | decrypt (s : State) (p : List Byte) (hp : p.length = s.srcLen.toNat - 4)
      (h : rangesUsable s.params.memBytes (inputRange .decrypt s) (outputRange .decrypt s)) :
      Completes .decrypt s (decrypted s p)
  | unverified (s : State)
      (h : rangesUsable s.params.memBytes (inputRange .decrypt s) (outputRange .decrypt s)) :
      Completes .decrypt s (unverified s)

/-- Every command answers a next state, and it is one of those forms. -/
theorem exec_completes (i : Instr) (s : State) : ∃ t, exec i s = .next t ∧ Completes i s t := by
  cases i with
  | cfgKey =>
    rcases execCfgKey_cases s with ⟨_, h⟩ | ⟨_, _, h⟩ | ⟨_, _, h⟩
    · exact ⟨_, h, .error _ _ _ (by decide)⟩
    · exact ⟨_, h, .error _ _ _ (by decide)⟩
    · exact ⟨_, h, .cfgKey _ _⟩
  | cfgIv =>
    rcases execCfgIv_cases s with ⟨_, h⟩ | ⟨_, _, h⟩ | ⟨_, _, h⟩
    · exact ⟨_, h, .error _ _ _ (by decide)⟩
    · exact ⟨_, h, .error _ _ _ (by decide)⟩
    · exact ⟨_, h, .cfgIv _ _⟩
  | cfgDefault => exact ⟨_, execCfgDefault_next s, .cfgDefault _ _ _⟩
  | encrypt =>
    rcases execEncrypt_cases s with ⟨_, h⟩ | ⟨hu, h⟩
    · exact ⟨_, h, .error _ _ _ (by decide)⟩
    · exact ⟨_, h, .encrypt _ hu⟩
  | decrypt =>
    rcases execDecrypt_cases s with ⟨_, h⟩ | ⟨_, ⟨_, h⟩ | ⟨hu, ⟨p, hp, _, h⟩ | ⟨_, h⟩⟩⟩
    · exact ⟨_, h, .error _ _ _ (by decide)⟩
    · exact ⟨_, h, .error _ _ _ (by decide)⟩
    · exact ⟨_, h, .decrypt _ _ hp hu⟩
    · exact ⟨_, h, .unverified _ hu⟩
  | checksum =>
    rcases execChecksum_cases s with ⟨_, h⟩ | ⟨_, _, h⟩ | ⟨_, _, h⟩
    · exact ⟨_, h, .error _ _ _ (by decide)⟩
    · exact ⟨_, h, .error _ _ _ (by decide)⟩
    · exact ⟨_, h, .checksum _ _ _⟩
  | encblk => exact ⟨_, execEncblk_next s, .encblk s⟩
  | decblk => exact ⟨_, execDecblk_next s, .decblk s⟩

/-- A command that answers a next state answers one of those forms. -/
theorem completes_of_exec {i : Instr} {s t : State} (h : exec i s = .next t) : Completes i s t := by
  obtain ⟨u, hu, hc⟩ := exec_completes i s
  rw [h] at hu
  cases hu
  exact hc

end Sys2Proof.Machine
end

