-- ==== Sys2Proof/Laws/PerInstr.lean ====
section
/-! SUPPORT. Statements about every command as syntax, one lemma per constructor. `DecodeEncode`: the encoder's word is
well formed and decodes to the command it was made from (R71, R72). -/

namespace Sys2Proof.Laws.DecodeEncode

/-- The word of a command has the command's fields, they are well formed, and the word decodes to the command. -/
def Statement (i : Instr) : Prop :=
  fieldsOf (encode i) = { rsv := 0, opc := opcode i } ∧ (fieldsOf (encode i)).WellFormed ∧
    decode (encode i) = .command i

theorem cfgKey : Statement .cfgKey := by unfold Statement; decide
theorem cfgIv : Statement .cfgIv := by unfold Statement; decide
theorem cfgDefault : Statement .cfgDefault := by unfold Statement; decide
theorem encrypt : Statement .encrypt := by unfold Statement; decide
theorem decrypt : Statement .decrypt := by unfold Statement; decide
theorem checksum : Statement .checksum := by unfold Statement; decide
theorem encblk : Statement .encblk := by unfold Statement; decide
theorem decblk : Statement .decblk := by unfold Statement; decide

end Sys2Proof.Laws.DecodeEncode
end

