-- ==== Sys2Proof/Tests/Slice0.lean ====
section
/-! SUPPORT. The model's own tests. Every expected value is one of `95_test_vectors.md` (named V-… or P…), of a rule's
own example, or written out by hand from the rule named. After them, for each statement with hypotheses, a concrete
state and operands that meet them, clause by clause. -/

namespace Sys2Proof.Tests

open Sys2Proof Sys2Proof.Machine

/-! ## A small machine -/

/-- `DELTA` as the vectors assume, 1024 bytes of memory, and a default key whose bytes are all different. -/
def demoParams : Params :=
  { delta := Config.recommendedDelta
    defaultKey := #v[0xD0, 0xD1, 0xD2, 0xD3, 0xD4, 0xD5, 0xD6, 0xD7, 0xD8, 0xD9, 0xDA, 0xDB, 0xDC, 0xDD, 0xDE, 0xDF]
    memBytes := 0x400
    regBase := 0
    memBase := 0 }

/-- The keys `k0` and `kseq`, and the IV `ivseq`, of the vectors. -/
def k0 : Key := { k0 := 0, k1 := 0, k2 := 0, k3 := 0 }
@[inherit_doc k0] def kseq : Key := { k0 := 0x03020100, k1 := 0x07060504, k2 := 0x0B0A0908, k3 := 0x0F0E0D0C }
@[inherit_doc k0] def ivseq : Block := 0x0706050403020100

/-- An idle core under `k0` and IV 0. -/
def idle : State := { State.powerOn demoParams [] with pend := 0, key := k0 }

/-- Operand registers, and bytes `bs` at `SRC_ADDR`. -/
def operands (src len dst : Word) (bs : List Byte) : State :=
  { idle with srcAddr := src, srcLen := len, dstAddr := dst, mem := Memory.writeBytes [] src.toNat bs }

/-- The word `w` pending. -/
def pending (w : Word) (s : State) : State := { s with pend := w, status := Status.started }

/-- The next state, if there is one. -/
def nextOf : Host.Outcome State Fault Refusal → Option State
  | .next t => some t
  | .fault _ => none
  | .refused _ => none

/-- What one event does to a state. -/
def afterEvent (e : Event) (s : State) : Option State := nextOf (step { s with events := [e] })

/-! ## WellFormed refuses ill-formed terms -/

theorem test_wellformed_word : (fieldsOf 0x00000004).WellFormed := by decide
theorem test_illformed_rsv : ¬ (fieldsOf 0x00000014).RsvZero := by decide
theorem test_illformed_rsv_top_bit : ¬ (fieldsOf 0x80000004).RsvZero := by decide
theorem test_illformed_opc_zero : ¬ (fieldsOf 0x00000000).OpcAssigned := by decide
theorem test_illformed_opc_nine : ¬ (fieldsOf 0x00000009).OpcAssigned := by decide
theorem test_wellformed_access : RegAccessWellFormed 32 0x3C := by decide
theorem test_illformed_access_width : ¬ HostOp.WellFormed (.regRead 16 0x04) := by decide
theorem test_illformed_access_unaligned : ¬ HostOp.WellFormed (.regWrite 32 0x06 0) := by decide
theorem test_illformed_access_beyond : ¬ HostOp.WellFormed (.regRead 32 0x40) := by decide
theorem test_wellformed_params : demoParams.WellFormed := by decide
theorem test_illformed_params_small : ¬ Params.WellFormed { demoParams with memBytes := 7 } := by decide
theorem test_illformed_params_large : ¬ Params.WellFormed { demoParams with memBytes := 0x100000001 } := by decide

/-! ## Decoding: each row's word, bit by bit from R70 and R72 (RSV 31:4 all zero, OPC 3:0) -/

theorem test_decode_cfgKey : decode 0b00000000000000000000000000000001#32 = .command .cfgKey := by decide
theorem test_decode_cfgIv : decode 0b00000000000000000000000000000010#32 = .command .cfgIv := by decide
theorem test_decode_cfgDefault : decode 0b00000000000000000000000000000011#32 = .command .cfgDefault := by decide
theorem test_decode_encrypt : decode 0b00000000000000000000000000000100#32 = .command .encrypt := by decide
theorem test_decode_decrypt : decode 0b00000000000000000000000000000101#32 = .command .decrypt := by decide
theorem test_decode_checksum : decode 0b00000000000000000000000000000110#32 = .command .checksum := by decide
theorem test_decode_encblk : decode 0b00000000000000000000000000000111#32 = .command .encblk := by decide
theorem test_decode_decblk : decode 0b00000000000000000000000000001000#32 = .command .decblk := by decide

/-- V-X. -/
theorem test_decode_illegal :
    decode 0x00000000 = .illegal .reservedOpcode ∧ decode 0x00000009 = .illegal .reservedOpcode ∧
    decode 0x0000000F = .illegal .reservedOpcode ∧ decode 0x00000010 = .illegal .reservedBits ∧
    decode 0x00000014 = .illegal .reservedBits ∧ decode 0x80000004 = .illegal .reservedBits ∧
    decode 0xFFFFFFFF = .illegal .reservedBits := by decide

theorem test_decodeTableWord :
    decodeTableWord 32 4 = some .encrypt ∧ decodeTableWord 8 7 = some .encblk ∧ decodeTableWord 32 0 = none ∧
    decodeTableWord 32 0x14 = none ∧ decodeTableWord 32 0x100000004 = none := by decide

/-! ## The pure functions -/

/-- V-B1, V-B5. -/
theorem test_encryptBlock :
    encryptBlock 0x9E3779B9 0 0 k0 = (0x41EA3A0A, 0x94BAA940) ∧
    encryptBlock 0x9E3779B9 0x01234567 0x89ABCDEF
      { k0 := 0x00112233, k1 := 0x44556677, k2 := 0x8899AABB, k3 := 0xCCDDEEFF } = (0x126C6B92, 0xC0653A3E) := by
  decide +kernel

/-- V-B10, and V-B3 backwards. -/
theorem test_decryptBlock :
    decryptBlock 0x9E3779B9 0 0 k0 = (0x1423FF6D, 0x9216EF3A) ∧
    decryptBlock 0x9E3779B9 0x7601A96D 0xCE9D530C kseq = (0x03020100, 0x07060504) := by decide +kernel

/-- V-B11: the second round. -/
theorem test_round_trace :
    let r := repeatRound (encryptRound 0x9E3779B9 k0) 2 (encryptStart 0 0)
    r.sum = 0x3C6EF372 ∧ r.low = 0x3E3D2C81 ∧ r.high = 0x747811B6 := by decide +kernel

/-- V-C1, V-C2, V-C3, V-C4, V-C8. -/
theorem test_checksum :
    checksum [] = 0xFFFFFFFF ∧ checksum [0x74, 0x65, 0x73, 0x74] = 0x9A8B8B8C ∧
    checksum [0xFF, 0xFF, 0xFF, 0xFF, 1, 0, 0, 0] = 0xFFFFFFFF ∧ checksum [2, 0, 1, 0] = 0xFFFDFFFE ∧
    checksum [1, 0, 0, 0, 0, 0, 0, 0] = 0xFFFEFFFF := by decide +kernel

/-- V-P2 (V-S2, conflict C1), V-P3, V-P4, V-P6. -/
theorem test_padFrame :
    padFrame [0x74, 0x65, 0x73, 0x74] = [0x74, 0x65, 0x73, 0x74, 0x8C, 0x8B, 0x8B, 0x9A] ∧
    padFrame [] = [0, 0, 0, 0, 0xFF, 0xFF, 0xFF, 0xFF] ∧
    padFrame (List.replicate 8 0xAA) = List.replicate 8 0xAA ++ [0, 0, 0, 0, 0xAA, 0xAA, 0xAB, 0xAA] ∧
    padFrame [0x61, 0x62, 0x63, 0x64, 0x65] =
      [0x61, 0x62, 0x63, 0x64, 0x65, 0, 0, 0, 0, 0, 0, 0, 0x9C, 0x9B, 0x39, 0x9D] := by decide +kernel

/-- V-P1. -/
theorem test_framedLen :
    (List.range 17).map framedLen = [8, 8, 8, 8, 8, 16, 16, 16, 16, 16, 16, 16, 16, 24, 24, 24, 24] ∧
    (List.range 17).map padLen = [4, 3, 2, 1, 0, 7, 6, 5, 4, 3, 2, 1, 0, 7, 6, 5, 4] ∧
    framedLen 1020 = 1024 ∧ framedLen 1021 = 1032 := by decide +kernel

/-- V-P8. -/
theorem test_unframeVerify :
    (unframeVerify [0x74, 0x65, 0x73, 0x74, 0x8C, 0x8B, 0x8B, 0x9A]).toOption = some [0x74, 0x65, 0x73, 0x74] ∧
    (unframeVerify [0x74, 0x65, 0x73, 0x74, 0x8C, 0x8B, 0x8B, 0x9B]).toOption = none ∧
    (unframeVerify [0, 0, 0, 0, 0xFF, 0xFF, 0xFF, 0xFF]).toOption = some [0, 0, 0, 0] ∧
    (unframeVerify [1, 2, 3]).toOption = none := by decide +kernel

/-- V-M1, V-M2, V-M3, V-M4. -/
theorem test_mutateKey :
    mutateKey k0 = kseq ∧
    mutateKey { k0 := 0xFFFFFFFF, k1 := 0xFFFFFFFF, k2 := 0xFFFFFFFF, k3 := 0xFFFFFFFF } =
      { k0 := 0x020100FF, k1 := 0x06050403, k2 := 0x0A090807, k3 := 0x0E0D0C0B } ∧
    mutateKey { k0 with k0 := 0x0000FF00 } = { kseq with k0 := 0x03020000 } ∧
    mutateKey kseq = { k0 := 0x06040200, k1 := 0x0E0C0A08, k2 := 0x16141210, k3 := 0x1E1C1A18 } := by decide +kernel

/-- V-E3, V-E5: the key and the IV in their places, and the chaining of the second block. -/
theorem test_encryptStream :
    encryptStream 0x9E3779B9 [0x74, 0x65, 0x73, 0x74] kseq ivseq = [0x0E, 0x8D, 0x99, 0x06, 0xD6, 0x26, 0x26, 0x5D] ∧
    encryptStream 0x9E3779B9 (zeros 8) k0 0 =
      [0x0A, 0x3A, 0xEA, 0x41, 0x40, 0xA9, 0xBA, 0x94, 0x00, 0x63, 0x77, 0x5D, 0x21, 0x57, 0xA6, 0x68] := by
  decide +kernel

/-- V-D5, V-D10. -/
theorem test_decryptStream :
    (decryptStream 0x9E3779B9
      [0x31, 0x32, 0x10, 0xB6, 0xF5, 0xEF, 0xF1, 0x95, 0x06, 0x12, 0xBB, 0x9B, 0x3A, 0x84, 0xF3, 0xF3] k0 0).toOption =
      some [0x61, 0x62, 0x63, 0x64, 0x65, 0x66, 0x67, 0x68, 0x69, 0x6A, 0x6B, 0x00] ∧
    (decryptStream 0x9E3779B9 [0x73, 0xC4, 0xD0, 0x32, 0x0D, 0xA3, 0x58, 0xFC] k0 1).toOption = none := by
  decide +kernel

/-- V-R1: blocks 127 and 128 of 1024 zero bytes, the second one under the mutated key. -/
theorem test_ratchet_crossing :
    (encryptStream 0x9E3779B9 (zeros 1024) k0 0).drop 1016 =
      [0x9B, 0x15, 0x25, 0x30, 0x78, 0x8D, 0xDD, 0x4C, 0x42, 0x40, 0x81, 0xDD, 0xA5, 0xD2, 0xA5, 0x7D] := by
  decide +kernel

/-- V-R6: 1020 zero bytes end with the counter at 1024 and no mutation. -/
theorem test_ratchet_not_reached :
    (encryptStream 0x9E3779B9 (zeros 1020) k0 0).drop 1016 = [0x60, 0x56, 0xEE, 0x3A, 0xFA, 0xF0, 0x27, 0x9D] := by
  decide +kernel

/-! ## The commands, one step each -/

/-- V-K1. -/
theorem test_cfgKey :
    (nextOf (exec .cfgKey (operands 0x20 16 0 ((List.range 16).map (BitVec.ofNat 8))))).map
      (fun t => (t.key, t.status.word, t.dstLen)) = some (kseq, 0x2, 0) := by decide +kernel

/-- V-K5: `SRC_ADDR = MEM_BYTES - 8`. -/
theorem test_cfgKey_addr :
    (nextOf (exec .cfgKey (operands 0x3F8 16 0 []))).map (fun t => (t.key, t.status.word)) = some (k0, 0x56) := by
  decide +kernel

/-- V-K2. -/
theorem test_cfgIv :
    (nextOf (exec .cfgIv (operands 0x10 8 0 [0, 1, 2, 3, 4, 5, 6, 7]))).map (fun t => (t.iv, t.status.word)) =
      some (ivseq, 0x2) := by decide +kernel

/-- V-K4. -/
theorem test_cfgIv_length :
    (nextOf (exec .cfgIv { operands 0x10 16 0 [] with dstLen := 8 })).map (fun t => (t.iv, t.status.word, t.dstLen)) =
      some (0, 0x16, 0) := by decide +kernel

/-- V-K6. -/
theorem test_cfgDefault :
    (nextOf (exec .cfgDefault { idle with iv := ivseq })).map (fun t => (t.key, t.iv, t.status.word)) =
      some ({ k0 := 0xD3D2D1D0, k1 := 0xD7D6D5D4, k2 := 0xDBDAD9D8, k3 := 0xDFDEDDDC }, 0, 0x2) := by decide +kernel

/-- V-E9, where the ranges only touch: the V-E2 ciphertext at 0x104. -/
theorem test_encrypt :
    (nextOf (exec .encrypt (operands 0x100 4 0x104 [0x74, 0x65, 0x73, 0x74]))).map
      (fun t => (t.mem.readBytes 0x104 8, t.dstLen, t.status.word)) =
      some ([0x73, 0xC4, 0xD0, 0x32, 0x0D, 0xA3, 0x58, 0xFC], 8, 0x2) := by decide +kernel

/-- V-E9, where they overlap. -/
theorem test_encrypt_overlap :
    (nextOf (exec .encrypt (operands 0x100 4 0x0FC [0x74, 0x65, 0x73, 0x74]))).map
      (fun t => (t.mem.readBytes 0xFC 8, t.dstLen, t.status.word)) =
      some ([0, 0, 0, 0, 0x74, 0x65, 0x73, 0x74], 0, 0x56) := by decide +kernel

/-- V-D1. -/
theorem test_decrypt :
    (nextOf (exec .decrypt (operands 0x100 8 0x200 [0x73, 0xC4, 0xD0, 0x32, 0x0D, 0xA3, 0x58, 0xFC]))).map
      (fun t => (t.mem.readBytes 0x200 4, t.dstLen, t.status.word)) =
      some ([0x74, 0x65, 0x73, 0x74], 4, 0x2) := by decide +kernel

/-- V-D6: the flipped bit. -/
theorem test_decrypt_integrity :
    (nextOf (exec .decrypt (operands 0x100 8 0x200 [0x72, 0xC4, 0xD0, 0x32, 0x0D, 0xA3, 0x58, 0xFC]))).map
      (fun t => (t.dstLen, t.status.word)) = some (0, 0x36) := by decide +kernel

/-- The example of R129. -/
theorem test_checksum_command :
    (nextOf (exec .checksum (operands 0 4 0 [0x74, 0x65, 0x73, 0x74]))).map (fun t => (t.csum, t.status.word)) =
      some (0x9A8B8B8C, 0x2) := by decide +kernel

/-- V-C11: FormatError wins over AddrError. -/
theorem test_checksum_priority :
    (nextOf (exec .checksum { idle with srcAddr := 0xFFFFFFFF, srcLen := 5 })).map (·.status.word) = some 0x26 := by
  decide +kernel

/-- V-B13. -/
theorem test_encblk :
    (nextOf (exec .encblk idle)).map (fun t => (t.blkLo, t.blkHi, t.status.word)) =
      some (0x41EA3A0A, 0x94BAA940, 0x2) := by decide +kernel

/-- The example of R105. -/
theorem test_decblk :
    (nextOf (exec .decblk { idle with blkLo := 0x41EA3A0A, blkHi := 0x94BAA940 })).map
      (fun t => (t.blkLo, t.blkHi, t.status.word)) = some (0, 0, 0x2) := by decide +kernel

/-! ## The host port, one step each -/

/-- R22: an illegal word still sets BUSY. -/
theorem test_cmd_write :
    (afterEvent (.host (.regWrite 32 0x00 0x10)) idle).map (fun t => (t.pend, t.status.word)) = some (0x10, 0x1) := by
  decide +kernel

/-- P3, step 27. -/
theorem test_illegal_word :
    (afterEvent .engine (pending 0x10 { idle with dstLen := 4 })).map (fun t => (t.status.word, t.dstLen)) =
      some (0x46, 0) := by decide +kernel

/-- V-Z on a core that is not idle at zero. -/
theorem test_reset :
    (afterEvent (.host .reset) { operands 1 2 3 [5] with csum := 4, blkLo := 6, iv := 7 }).map
      (fun t => (t.srcAddr, t.srcLen, t.dstAddr, t.csum, t.blkLo, t.iv, t.status.word)) =
      some (0, 0, 0, 0, 0, 0, 0) := by decide +kernel

/-- R239, P5a step 4: STATUS reads 1 before the engine's step. -/
theorem test_status_busy :
    (afterEvent (.host (.regRead 32 0x04)) (pending 4 idle)).map (·.replies) = some [.word 1] := by decide +kernel

/-- P5b: the write that hits a busy core. -/
theorem test_busy_write :
    (afterEvent (.host (.regWrite 32 0x0C 8)) (pending 4 idle)).map (fun t => (t.hfault, t.srcLen)) =
      some (true, 0) := by decide +kernel

/-- R237: a host write just past the output range of a pending ENCRYPT is legal, one at its last byte is not. -/
theorem test_busy_memory_write :
    (afterEvent (.host (.memWrite 0x108 1)) (pending 4 (operands 0 0 0x100 []))).map (·.hfault) = some false ∧
    (afterEvent (.host (.memWrite 0x107 1)) (pending 4 (operands 0 0 0x100 []))).map (·.hfault) = some true := by
  decide +kernel

/-- The interface runs each row's command as the first one after reset. -/
theorem test_withFetchWord :
    ([1, 2, 3, 4, 5, 6, 7, 8].all fun w => (nextOf (step (State.reset.withFetchWord 32 w))).isSome) = true := by
  decide

/-! ## Witnesses: the hypotheses of each statement, and of each of its clauses, are met -/

theorem test_witness_EngineTurnRunsTheDecodedCommand :
    let s := pending 0x7 idle
    s.hfault = false ∧ s.status.busy = true ∧ decode s.pend = .command .encblk ∧ s.events = [] ∧
      ({ s with events := [.engine] } : State).events = .engine :: [] := by decide

theorem test_witness_HostEventRunsTheHostOperation :
    let s : State := { idle with events := [.host (.memRead 0)] }
    s.hfault = false ∧ s.events = .host (.memRead 0) :: [] := by decide

theorem test_witness_EngineDisabledWhenIdleOrFaulted :
    ({ idle with hfault := true } : State).hfault = true ∧
    (idle.hfault = false ∧ idle.status.busy = false ∧ idle.events = []) ∧
    ({ idle with events := [.engine] } : State).events = .engine :: [] := by decide

theorem test_witness_EveryPendingWordCompletes :
    let s := pending 0xFFFFFFFF idle
    (s.hfault = false ∧ s.status.busy = true ∧ s.events = []) ∧
    ({ s with events := [.engine] } : State).events = .engine :: [] := by decide

/-- One word for each way of being illegal, at the boundary; both turns of the engine. -/
theorem test_witness_IllegalWordsOnlyReport :
    (let s := pending 0x10 idle
     s.hfault = false ∧ s.status.busy = true ∧ s.events = [] ∧ s.pend.toNat / 16 ≠ 0) ∧
    (let s := pending 0x0 idle
     s.hfault = false ∧ s.status.busy = true ∧ s.events = [] ∧ s.pend.toNat % 16 = 0) ∧
    (let s := pending 0x9 idle
     s.hfault = false ∧ s.status.busy = true ∧ s.events = [] ∧ 9 ≤ s.pend.toNat % 16) ∧
    ({ pending 0x10 idle with events := [.engine] } : State).events = .engine :: [] := by decide

theorem test_witness_SumSchedule : (1 ≤ 1 ∧ 1 ≤ 32) ∧ (1 ≤ 32 ∧ 32 ≤ 32) := by decide

/-- The last four and the last eight bytes of a sequence, and a key's sixteen. -/
theorem test_witness_ByteOrder :
    0 + 4 ≤ (zeros 4).length ∧ 12 + 4 ≤ (zeros 16).length ∧ 0 + 8 ≤ (zeros 8).length ∧ 8 + 8 ≤ (zeros 16).length ∧
    ((List.range 16).map (BitVec.ofNat 8)).length = 16 := by decide

theorem test_witness_ChecksumIsTheIndexedLoop : ([1, 2, 3, 4] : List Byte).length % 4 = 0 := by decide

theorem test_witness_UnframeVerifyComparesTheChecksum :
    ([1, 2, 3] : List Byte).length < 4 ∧ ([1, 2, 3, 4] : List Byte).length = 4 := by decide

theorem test_witness_MutateKeyAddsThePositionToEachByte : 0 < 16 ∧ 15 < 16 := by decide

theorem test_witness_RatchetSchedule :
    encryptNext 0 ∈ [encryptNext 0, decryptNext 0] ∧ decryptNext 0 ∈ [encryptNext 0, decryptNext 0] ∧
    ([] : List Block).length = 0 ∧ ([7] : List Block).length ≠ 0 := by simp

theorem test_witness_EncryptStreamChainsBlocks : 0 < framedLen 0 / 8 ∧ 1 < framedLen 5 / 8 := by decide

theorem test_witness_DecryptStreamChainsBlocks :
    (zeros 0).length = 0 ∧ (zeros 12).length % 8 ≠ 0 ∧ (zeros 16).length ≠ 0 ∧ (zeros 16).length % 8 = 0 ∧
      1 < (zeros 16).length / 8 ∧ (decryptStream 0x9E3779B9
        [0x73, 0xC4, 0xD0, 0x32, 0x0D, 0xA3, 0x58, 0xFC] k0 0).toOption = some [0x74, 0x65, 0x73, 0x74] := by
  decide +kernel

/-- A length that is no multiple of 4; the last 4 bytes but one byte too far; those 4 bytes; and length 0 anywhere. -/
theorem test_witness_ChecksumCommand :
    (idle.params.memBytes = 0x400) ∧
    (let s := operands 0 3 0 []; s.srcLen.toNat % 4 ≠ 0) ∧
    (let s := operands 0x3FD 4 0 []; s.srcLen.toNat % 4 = 0 ∧ ¬ (s.srcLen.toNat = 0 ∨ s.srcAddr.toNat + s.srcLen.toNat ≤ 0x400)) ∧
    (let s := operands 0x3FC 4 0 []; s.srcLen.toNat % 4 = 0 ∧ s.srcAddr.toNat + s.srcLen.toNat ≤ 0x400) ∧
    (let s := operands 0xFFFFFFFF 0 0 []; s.srcLen.toNat % 4 = 0 ∧ s.srcLen.toNat = 0) := by decide

/-- ENCRYPT of 4 bytes at 0x100 into 8 bytes: one byte of overlap, touching, and one byte beyond the memory. -/
theorem test_witness_EncryptCommand :
    let usable := fun (a n d : Nat) =>
      (n = 0 ∨ a + n ≤ 0x400) ∧ d + framedLen n ≤ 0x400 ∧ ¬ (n ≠ 0 ∧ a < d + framedLen n ∧ d < a + n)
    demoParams.WellFormed ∧ ¬ usable 0x100 4 0x103 ∧ ¬ usable 0x100 4 0xF9 ∧ ¬ usable 0x100 4 0x3F9 ∧ usable 0x100 4 0x104 ∧
      usable 0x100 4 0xF8 ∧ usable 0x100 4 0x3F8 ∧ usable 0xFFFFFFFF 0 0x100 := by decide

/-- DECRYPT: both wrong lengths; one byte of overlap; V-D1; V-D6. -/
theorem test_witness_DecryptCommand :
    let usable := fun (a n d : Nat) =>
      a + n ≤ 0x400 ∧ d + (n - 4) ≤ 0x400 ∧ ¬ (a < d + (n - 4) ∧ d < a + n)
    let c := fun (b : Byte) => [b, 0xC4, 0xD0, 0x32, 0x0D, 0xA3, 0x58, 0xFC]
    (8 ≠ 0 ∧ 8 % 8 = 0 ∧ 12 % 8 ≠ 0) ∧ ¬ usable 0x100 8 0x107 ∧ usable 0x100 8 0x108 ∧ usable 0x100 8 0xFC ∧
      (decryptStream 0x9E3779B9 (c 0x73) k0 0).toOption = some [0x74, 0x65, 0x73, 0x74] ∧
      (decryptStream 0x9E3779B9 (c 0x72) k0 0).toOption = none := by decide +kernel

/-- The second output overwrites the plaintext of the first command. -/
theorem test_witness_EncryptThenDecryptInMemory :
    let s := operands 0 5 0x100 [1, 2, 3, 4, 5]
    s.params.WellFormed ∧ rangesUsable s.params.memBytes ⟨0, 5⟩ ⟨0x100, framedLen 5⟩ ∧
      rangesUsable s.params.memBytes ⟨0x100, framedLen 5⟩ ⟨0, framedLen 5 - 4⟩ := by decide

/-- The length one off on either side; 16 bytes one byte too far; 16 bytes that end with the memory. -/
theorem test_witness_CfgKeyCommand :
    (operands 0 15 0 []).srcLen.toNat ≠ 16 ∧ (operands 0 17 0 []).srcLen.toNat ≠ 16 ∧
    (let s := operands 0x3F1 16 0 []; s.srcLen.toNat = 16 ∧ ¬ s.srcAddr.toNat + 16 ≤ s.params.memBytes) ∧
    (let s := operands 0x3F0 16 0 []; s.srcLen.toNat = 16 ∧ s.srcAddr.toNat + 16 ≤ s.params.memBytes) := by decide

theorem test_witness_CfgIvCommand :
    (operands 0 7 0 []).srcLen.toNat ≠ 8 ∧ (operands 0 9 0 []).srcLen.toNat ≠ 8 ∧
    (let s := operands 0x3F9 8 0 []; s.srcLen.toNat = 8 ∧ ¬ s.srcAddr.toNat + 8 ≤ s.params.memBytes) ∧
    (let s := operands 0x3F8 8 0 []; s.srcLen.toNat = 8 ∧ s.srcAddr.toNat + 8 ≤ s.params.memBytes) := by decide

/-- An error other than IntegrityError, and IntegrityError (V-D6). -/
theorem test_witness_ErrorsLeaveEverythingElse :
    (∃ t, exec .checksum (operands 0 3 0 []) = .next t ∧ t.status.err = true ∧ t.status.errCode ≠ 3) ∧
    (∃ t, exec .decrypt (operands 0x100 8 0x200 [0x72, 0xC4, 0xD0, 0x32, 0x0D, 0xA3, 0x58, 0xFC]) = .next t ∧
      t.status.err = true ∧ t.status.errCode = 3) ∧
    (inputRange .decrypt (operands 0x100 8 0x200 [])).Holds 0x107 :=
  ⟨⟨_, rfl, by decide⟩, ⟨_, rfl, by decide +kernel⟩, by decide⟩

theorem test_witness_DstLenIsWrittenByTheEngineOnly :
    (∃ t, exec .checksum (operands 0 3 0 []) = .next t ∧ t.status.err = true) ∧
    (∃ t, exec .encrypt (operands 0 5 0x100 []) = .next t ∧ t.status.err = false) ∧
    (∃ t, exec .decrypt (operands 0x100 8 0x200 [0x73, 0xC4, 0xD0, 0x32, 0x0D, 0xA3, 0x58, 0xFC]) = .next t ∧
      t.status.err = false) ∧
    (∃ t, exec .cfgDefault idle = .next t ∧ t.status.err = false) ∧
    (let s : State := { idle with events := [.host (.regWrite 32 0x14 9)] }
     s.hfault = false ∧ s.status.busy = false ∧ s.events = .host (.regWrite 32 0x14 9) :: []) :=
  ⟨⟨_, rfl, by decide⟩, ⟨_, rfl, by decide +kernel⟩, ⟨_, rfl, by decide +kernel⟩, ⟨_, rfl, rfl⟩, by decide⟩

theorem test_witness_CommandsWriteOnlyTheirResults :
    (∃ t, exec .cfgDefault idle = .next t) ∧ (∃ t, exec .checksum idle = .next t) ∧
    (Instr.checksum ∉ [Instr.cfgKey, .cfgDefault] ∧ Instr.checksum ∉ [Instr.cfgIv, .cfgDefault] ∧
      Instr.cfgDefault ≠ .checksum ∧ Instr.cfgDefault ∉ [Instr.encblk, .decblk] ∧
      Instr.cfgDefault ∉ [Instr.encrypt, .decrypt]) := ⟨⟨_, rfl⟩, ⟨_, rfl⟩, by decide⟩

/-- `KEY` and `IV` by CFG_DEFAULT and by reset, `CSUM` by CHECKSUM and by reset. -/
theorem test_witness_KeyIvCsumChangeOnlyByTheirCommandsOrReset :
    let s : State := { idle with iv := 1, csum := 1 }
    (nextOf (step (pending 0x3 s))).map (fun t => decide (t.key ≠ s.key ∧ t.iv ≠ s.iv)) = some true ∧
    (nextOf (step (pending 0x6 s))).map (fun t => decide (t.csum ≠ s.csum)) = some true ∧
    (afterEvent (.host .reset) s).map (fun t => decide (t.key ≠ s.key ∧ t.iv ≠ s.iv ∧ t.csum ≠ s.csum)) =
      some true := by decide +kernel

theorem test_witness_CommandsWriteOnlyTheirOutputRange :
    let s := operands 0x100 4 0x104 []
    (∃ t, exec .encrypt s = .next t) ∧ ¬ (outputRange .encrypt s).Holds 0x10C ∧ (inputRange .encrypt s).Holds 0x103 :=
  ⟨⟨_, rfl⟩, by decide, by decide⟩

/-- A memory that differs just past the input range. -/
theorem test_witness_CommandsReadOnlyTheirInputRange :
    let s := operands 0x100 4 0x104 [0x74, 0x65, 0x73, 0x74]
    let m := s.mem.writeBytes 0x104 [9]
    (∃ t, exec .encrypt s = .next t ∧ t.status.err = false) ∧ (outputRange .encrypt s).Holds 0x10B ∧
      m.read 0x104 ≠ s.mem.read 0x104 ∧ ∀ x, (inputRange .encrypt s).Holds x → m.read x = s.mem.read x :=
  ⟨⟨_, rfl, by decide +kernel⟩, by decide, by decide +kernel, fun _ hx => read_writeBytes_outside (.inl hx.2)⟩

theorem test_witness_ErrorsRepeat :
    ∃ t, exec .checksum (operands 0 3 0 []) = .next t ∧ t.status.err = true := ⟨_, rfl, by decide⟩

theorem test_witness_ResetWhileIdle : idle.status.busy = false := by decide

/-- The byte just past the output range of the aborted command is kept, and so is every byte when it has none. -/
theorem test_witness_ResetAbortsThePendingCommand :
    let s := pending 0x4 (operands 0 4 0x100 [])
    s.status.busy = true ∧ decode s.pend = .command .encrypt ∧ ¬ 0x108 < s.dstAddr.toNat + framedLen s.srcLen.toNat := by
  decide

theorem test_witness_ResetEventAndHfault :
    let s : State := { idle with events := [.host .reset] }
    s.hfault = false ∧ s.events = .host .reset :: [] := by decide

theorem test_witness_PowerOnState : 0 < 4 ∧ 3 < 4 := by decide

theorem test_witness_CmdRegister :
    (let s : State := { idle with events := [.host (.regWrite 32 0x00 4)] }
     s.hfault = false ∧ s.status.busy = false ∧ s.events = .host (.regWrite 32 0x00 4) :: []) ∧
    (let s : State := { idle with events := [.host (.regRead 32 0x00)] }
     s.hfault = false ∧ s.events = .host (.regRead 32 0x00) :: []) ∧
    (let s : State := { pending 4 idle with events := [.host (.regWrite 32 0x00 4)] }
     s.hfault = false ∧ s.status.busy = true ∧ s.events = .host (.regWrite 32 0x00 4) :: []) := by decide

/-- Every clause, by its offsets. -/
theorem test_witness_IdleRegisterWrites :
    ∀ offset ∈ [0x08, 0x0C, 0x10, 0x18, 0x1C, 0x04, 0x14, 0x20, 0x24, 0x28, 0x2C, 0x30, 0x34, 0x38, 0x3C],
      let s : State := { idle with events := [.host (.regWrite 32 offset 5)] }
      s.hfault = false ∧ s.status.busy = false ∧ s.events = .host (.regWrite 32 offset 5) :: [] := by decide

theorem test_witness_IdleRegisterReads :
    ∀ offset ∈ [0x00, 0x04, 0x08, 0x3C],
      let s : State := { idle with events := [.host (.regRead 32 offset)] }
      s.hfault = false ∧ s.status.busy = false ∧ s.events = .host (.regRead 32 offset) :: [] ∧
        (offset, (0 : Word)) ∈
          [(0x00, 0), (0x04, s.status.word), (0x08, s.srcAddr), (0x0C, s.srcLen), (0x10, s.dstAddr),
           (0x14, s.dstLen), (0x18, s.blkLo), (0x1C, s.blkHi), (0x20, s.csum), (0x24, 0), (0x28, 0), (0x2C, 0),
           (0x30, 0), (0x34, 0), (0x38, 0), (0x3C, 0)] := by decide

/-- A register of each clause, the boundaries 0x10 and 0x14, 0x20 and 0x24 among them. -/
theorem test_witness_BusyRegisterReads :
    (∀ offset ∈ [0x00, 0x10, 0x24, 0x14, 0x20],
      let s : State := { pending 4 idle with events := [.host (.regRead 32 offset)] }
      s.hfault = false ∧ s.status = ⟨true, false, false, 0⟩ ∧ s.events = .host (.regRead 32 offset) :: []) ∧
    (∀ offset ∈ [0x00, 0x10, 0x24], (offset, (0 : Word)) ∈
      [(0x00, 0), (0x04, 1), (0x08, idle.srcAddr), (0x0C, idle.srcLen), (0x10, idle.dstAddr), (0x24, 0), (0x28, 0),
       (0x2C, 0), (0x30, 0), (0x34, 0), (0x38, 0), (0x3C, 0)]) ∧
    (∀ offset ∈ [0x14, 0x20], offset ∈ [0x14, 0x18, 0x1C, 0x20]) := by decide

/-- A register, a reserved offset, and an offset beyond the register space. -/
theorem test_witness_BusyRegisterWritesFault :
    ∀ offset ∈ [0x00, 0x3C, 0x40],
      let s : State := { pending 4 idle with events := [.host (.regWrite 32 offset 5)] }
      s.hfault = false ∧ s.status.busy = true ∧ s.events = .host (.regWrite 32 offset 5) :: [] := by decide

theorem test_witness_MalformedRegisterAccessFaults :
    ∀ access ∈ [(16, 0x00), (32, 0x3D), (32, 0x40)],
      let s : State := { idle with events := [.host (.regRead access.1 access.2)] }
      let u : State := { pending 4 idle with events := [.host (.regWrite access.1 access.2 5)] }
      (access.1 ≠ 32 ∨ access.2 % 4 ≠ 0 ∨ 0x40 ≤ access.2) ∧
        (s.hfault = false ∧ s.events = .host (.regRead access.1 access.2) :: []) ∧
        (u.hfault = false ∧ u.events = .host (.regWrite access.1 access.2 5) :: []) := by decide

/-- Each clause: the word pending. -/
theorem test_witness_ActiveRangesOfThePendingCommand :
    (∀ w ∈ [0x1#32, 0x2#32, 0x4#32, 0x5#32, 0x6#32], (pending w idle).pend = w) ∧
    (pending 0x3 idle).pend = 0x3 ∧ 0x3#32 ∉ [0x1#32, 0x2#32, 0x4#32, 0x5#32, 0x6#32] :=
  ⟨fun _ _ => rfl, rfl, by decide⟩

/-- R237, and log 11 for CFG_KEY; a pending DECRYPT of fewer than 4 bytes has an empty output range. -/
theorem test_active_ranges :
    pendingInput (pending 0x1 (operands 0x100 0 0 [])) = { base := 0x100, len := 16 } ∧
    pendingOutput (pending 0x4 (operands 0 5 0x100 [])) = { base := 0x100, len := 16 } ∧
    pendingOutput (pending 0x5 (operands 0 8 0x100 [])) = { base := 0x100, len := 4 } ∧
    (pendingOutput (pending 0x5 (operands 0 3 0x100 []))).len = 0 := by decide

/-- While busy: the last byte of the output range, and the byte after it; while idle. -/
theorem test_witness_HostByteWrites :
    (let s : State := { pending 4 (operands 0 0 0x100 []) with events := [.host (.memWrite 0x107 1)] }
     s.hfault = false ∧ 0x107 < s.params.memBytes ∧ s.status.busy = true ∧ (pendingOutput s).Holds 0x107) ∧
    (let s : State := { pending 4 (operands 0 0 0x100 []) with events := [.host (.memWrite 0x108 1)] }
     s.hfault = false ∧ 0x108 < s.params.memBytes ∧
       ¬ ((pendingInput s).Holds 0x108 ∨ (pendingOutput s).Holds 0x108)) ∧
    (let s : State := { idle with events := [.host (.memWrite 0x3FF 1)] }
     s.hfault = false ∧ 0x3FF < s.params.memBytes ∧ s.status.busy = false) := by decide

theorem test_witness_HostByteReads :
    (let s : State := { pending 4 (operands 0 0 0x100 []) with events := [.host (.memRead 0x107)] }
     s.hfault = false ∧ 0x107 < s.params.memBytes ∧ s.status.busy = true ∧ (pendingOutput s).Holds 0x107) ∧
    (let s : State := { pending 4 (operands 0 0 0x100 []) with events := [.host (.memRead 0x108)] }
     s.hfault = false ∧ 0x108 < s.params.memBytes ∧ ¬ (pendingOutput s).Holds 0x108) ∧
    (let s : State := { idle with events := [.host (.memRead 0x3FF)] }
     s.hfault = false ∧ 0x3FF < s.params.memBytes ∧ s.status.busy = false) := by decide

theorem test_witness_HostAccessBeyondMemoryStops :
    let s : State := { idle with events := [.host (.memRead 0x400)] }
    s.hfault = false ∧ s.params.memBytes ≤ 0x400 ∧ s.events = .host (.memRead 0x400) :: [] := by decide

/-- One violation of each kind. -/
theorem test_witness_OnlyViolationsSetHfault :
    (afterEvent (.host (.regWrite 32 0x08 1)) (pending 4 idle)).map (·.hfault) = some true ∧
    (afterEvent (.host (.regWrite 8 0x08 1)) idle).map (·.hfault) = some true ∧
    (afterEvent (.host (.regRead 32 0x40)) idle).map (·.hfault) = some true ∧
    (afterEvent (.host (.memWrite 0x100 1)) (pending 4 (operands 0 0 0x100 []))).map (·.hfault) = some true := by
  decide +kernel

theorem test_witness_HostCannotReadKeyOrIv :
    (∃ t, hostStep (.regRead 32 0x20) idle = .next t) ∧ HostOp.regRead 32 0x20 ≠ .reset ∧
    (∃ f, hostStep (.memRead 0x400) idle = .fault f) := ⟨⟨_, rfl⟩, by decide, ⟨_, rfl⟩⟩

/-- The invariant is met, also by a state that is busy and holds memory. -/
theorem test_witness_EveryStepKeepsTheInvariant :
    State.Inv (pending 0x3 (operands 0 4 0 [1, 0, 2, 3])) ∧
    ∃ t, step (pending 0x3 (operands 0 4 0 [1, 0, 2, 3])) = .next t :=
  ⟨⟨by decide, by decide +kernel, by decide +kernel, by decide, by decide⟩, _, rfl⟩

theorem test_witness_HiddenStateIsNeverSeen :
    (∃ t, core.run 0 idle = .next t) ∧ step { idle with hfault := true } = .fault .hostProtocol :=
  ⟨⟨_, rfl⟩, rfl⟩

theorem test_witness_WaitEndsHoweverLongTheEngineTakes :
    let s : State := { pending 0x7 idle with events := HostProgram.wait 2 }
    s.hfault = false ∧ s.status = ⟨true, false, false, 0⟩ ∧ s.events = HostProgram.wait 2 := by decide

theorem test_witness_ObservationOfARun :
    ({ idle with hfault := true } : State).hfault = true ∧ (pending 4 idle).status.busy = true ∧
    (.host (.memRead 0) ∈ ({ idle with events := [.engine, .host (.memRead 0)] } : State).events) ∧
    (idle.hfault = false ∧ idle.status.busy = false ∧ ∀ op, .host op ∉ idle.events) ∧
    (∀ op, .host op ∉ ({ idle with events := [.engine] } : State).events) :=
  ⟨by decide, by decide, by decide, ⟨by decide, by decide, fun _ h => (by cases h)⟩, fun _ h => (by simp at h)⟩

/-- R243: an idle core with nothing but an engine turn listed is observed, one with a host operation left is not. -/
theorem test_observe_with_engine_turn_left :
    ({ idle with events := [.engine] } : State).observe.isSome = true ∧
    ({ idle with events := [.engine, .host (.memRead 0)] } : State).observe = none := by decide

end Sys2Proof.Tests
end

section
/-! PROOFS. The statements of `00_scope.md`: bytes, words, blocks and keys by their values (R16, R52 to R54), and the
invariant of a core after power-on (R232). -/

namespace Sys2Proof.Machine

/-- The value of a block put together from two words (R53). -/
theorem block_toNat (high low : Word) : (high ++ low : Block).toNat = low.toNat + 4294967296 * high.toNat := by
  have := low.isLt
  have h : (high ++ low : Block).toNat = high.toNat <<< 32 ||| low.toNat := BitVec.toNat_append high low
  rw [h, ← Nat.shiftLeft_add_eq_or_of_lt (by omega), Nat.shiftLeft_eq]
  omega

/-- The values of a word's bytes, least significant first (R52). -/
theorem bytes32_toNat (w : Word) :
    (bytes32 w).map BitVec.toNat =
      [w.toNat % 256, w.toNat / 256 % 256, w.toNat / 65536 % 256, w.toNat / 16777216] := by
  have := w.isLt
  simp only [bytes32, List.map_cons, List.map_nil, BitVec.extractLsb'_toNat, Nat.shiftRight_eq_div_pow, Nat.reducePow,
    Nat.div_one, List.cons.injEq, and_true, true_and]
  omega

theorem lowOf_toNat (v : Block) : (lowOf v).toNat = v.toNat % 4294967296 := by
  simp [lowOf]

theorem highOf_toNat (v : Block) : (highOf v).toNat = v.toNat / 4294967296 := by
  have := v.isLt
  simp only [highOf, BitVec.extractLsb'_toNat, Nat.shiftRight_eq_div_pow]
  omega

theorem le32_append_left (front rest : List Byte) (i : Nat) (h : i + 4 ≤ front.length) :
    le32 (front ++ rest) i = le32 front i := by
  simp only [le32]
  rw [List.getD_append _ _ _ _ (by omega), List.getD_append _ _ _ _ (by omega), List.getD_append _ _ _ _ (by omega),
    List.getD_append _ _ _ _ (by omega)]

/-- Reading undoes writing for words (R52). -/
@[simp] theorem le32_bytes32 (w : Word) : le32 (bytes32 w) 0 = w := word32_bytes w

/-- Reading undoes writing for blocks (R53). -/
@[simp] theorem le64_bytes64 (v : Block) : le64 (bytes64 v) 0 = v := by
  have low : le32 (bytes64 v) 0 = lowOf v := by
    rw [bytes64, le32_append_left _ _ _ (by simp), le32_bytes32]
  have high : le32 (bytes64 v) 4 = highOf v := by
    rw [bytes64, ← bytes32_length (lowOf v), le32_append_right, le32_bytes32]
  rw [le64, Nat.zero_add, low, high, high_append_low]

/-- Sixteen bytes are the bytes of their key (R54). -/
theorem keyOfBytes_bytes_of_length {bs : List Byte} (h : bs.length = 16) : (keyOfBytes bs).bytes = bs := by
  obtain ⟨b0, b1, b2, b3, b4, b5, b6, b7, rest, rfl⟩ := eight_of_length (bs := bs) (by omega)
  simp only [List.length_cons] at h
  obtain ⟨b8, b9, b10, b11, b12, b13, b14, b15, rest, rfl⟩ := eight_of_length (bs := rest) (by omega)
  simp only [List.length_cons] at h
  obtain rfl : rest = [] := List.length_eq_zero_iff.mp (by omega)
  simp [keyOfBytes, Key.bytes, le32]

theorem bytes32_xor (v w : Word) : bytes32 (v ^^^ w) = List.zipWith (· ^^^ ·) (bytes32 v) (bytes32 w) := by
  simp [bytes32, BitVec.extractLsb'_xor]

/-- The bytes of a 64-bit XOR are the bytewise XOR (R53). -/
theorem bytes64_xor (v w : Block) : bytes64 (v ^^^ w) = List.zipWith (· ^^^ ·) (bytes64 v) (bytes64 w) := by
  have low : lowOf (v ^^^ w) = lowOf v ^^^ lowOf w := BitVec.extractLsb'_xor
  have high : highOf (v ^^^ w) = highOf v ^^^ highOf w := BitVec.extractLsb'_xor
  simp only [bytes64]
  rw [low, high, bytes32_xor, bytes32_xor, List.zipWith_append (by simp)]

/-- The constants the machine is reset with are within the bounds of R14, whatever they are (log 1). -/
theorem config_params_wellFormed : Config.params.WellFormed := by
  have := Config.extraMemBytes.isLt
  simp only [Params.WellFormed, Config.params, minMemBytes, maxMemBytes]
  omega

/-- Power-on meets the invariant with any legal parameters and any canonical memory of their size (R14, R232). -/
theorem powerOn_inv {p : Params} {m : Memory} (hp : p.WellFormed) (hm : m.wf) (inside : ∀ c ∈ m, c.1 < p.memBytes) :
    (State.powerOn p m).Inv where
  params_wf := hp
  mem_wf := hm
  mem_inside := inside
  status_legal := afterReset_legal
  hidden_legal := blank_legal

/-! ## The obligations -/

/-- Settles O56: the reset machine is one powered on with the parameters of `Config` and an empty memory. -/
theorem resetMeetsTheInvariant : Obligations.ResetMeetsTheInvariant :=
  powerOn_inv config_params_wellFormed wf_nil (by simp)

/-- Settles O15: the values of words and blocks add up from their parts, and each reading undoes its writing. -/
theorem byteOrder : Obligations.ByteOrder :=
  ⟨fun _ _ _ => word32_toNat _ _ _ _, bytes32_toNat, fun _ _ _ => ⟨rfl, block_toNat _ _⟩,
    fun v => ⟨lowOf_toNat v, highOf_toNat v, rfl⟩, fun _ _ => rfl, le32_bytes32, le64_bytes64,
    fun _ h => keyOfBytes_bytes_of_length h, bytes64_xor⟩

end Sys2Proof.Machine
end

section
/-! PROOFS. The statements of `10_state.md`: the host's registers (R20 to R30), the step-by-step invariants of the state
(R23, R31 to R35, R38, R50) and the hidden state, which no run shows (R39). -/

namespace Sys2Proof.Machine

/-! ## Host accesses -/

/-- The register at an offset has that offset (R20, R78). -/
theorem offset_of_regAt {offset : Nat} {r : Reg} (h : regAt offset = some r) : r.offset = offset := by
  unfold regAt at h
  split at h <;> cases h <;> rfl

theorem offset_lt (r : Reg) : r.offset < 0x40 := by
  cases r with
  | reserved slot =>
    simp only [Reg.offset]
    omega
  | _ => decide

/-- No register lies beyond the register space (R20). -/
theorem regAt_beyond {offset : Nat} (h : 0x40 ≤ offset) : regAt offset = none := by
  refine Option.eq_none_iff_forall_ne_some.mpr fun r hr => ?_
  have := offset_of_regAt hr
  have := offset_lt r
  omega

/-- Inside the register space an offset names a register exactly when it is 4-aligned (R20). -/
theorem regAt_eq_none_inside : ∀ offset < 0x40, regAt offset = none ↔ offset % 4 ≠ 0 := by decide

/-- A register access reaches no register exactly when R21 forbids its shape. -/
theorem accessedReg_eq_none_iff (width offset : Nat) :
    accessedReg width offset = none ↔ ¬ RegAccessWellFormed width offset := by
  by_cases hw : width = 32
  · rw [accessedReg, if_pos hw]
    by_cases ho : offset < 0x40
    · rw [regAt_eq_none_inside offset ho]
      omega
    · exact iff_of_true (regAt_beyond (Nat.not_lt.mp ho)) fun h => ho h.2.2
  · exact iff_of_true (if_neg hw) fun h => hw h.1

section
variable {width offset addr : Nat} {v : Word} {b : Byte} {s : State} {r : Reg}

/-- A read of a forbidden shape is a violation (R21). -/
theorem hostRegRead_malformed (h : accessedReg width offset = none) :
    hostRegRead width offset s = .next s.markFault := by
  rw [hostRegRead, h]

/-- A result register gives a free value while busy (R238). -/
theorem hostRegRead_result (h : accessedReg width offset = some r)
    (result : s.status.busy = true ∧ isResultReg r = true) :
    hostRegRead width offset s =
      .next { s.reply (.word (Config.freeWord s.draws)) with draws := s.draws + 1 } := by
  rw [hostRegRead, h]
  exact if_pos result

/-- Every other read gives the register's value (R22 to R30, R238). -/
theorem hostRegRead_value (h : accessedReg width offset = some r)
    (value : ¬ (s.status.busy = true ∧ isResultReg r = true)) :
    hostRegRead width offset s = .next (s.reply (.word (s.readReg r))) := by
  rw [hostRegRead, h]
  exact if_neg value

/-- A write of a forbidden shape is a violation (R21). -/
theorem hostRegWrite_malformed (h : accessedReg width offset = none) :
    hostRegWrite width offset v s = .next s.markFault := by
  rw [hostRegWrite, h]

/-- Every write while busy is a violation (R235, R236). -/
theorem hostRegWrite_busy (busy : s.status.busy = true) : hostRegWrite width offset v s = .next s.markFault := by
  unfold hostRegWrite
  split
  · rfl
  · rw [if_pos busy]

/-- A write while idle writes the register it reaches (R22 to R30). -/
theorem hostRegWrite_idle (h : accessedReg width offset = some r) (idle : s.status.busy = false) :
    hostRegWrite width offset v s = .next (s.writeReg v r) := by
  simp [hostRegWrite, h, idle]

/-- Beyond the buffer memory there is no byte to read (R50). -/
theorem hostMemRead_beyond (h : s.params.memBytes ≤ addr) : hostMemRead addr s = .fault (.noSuchByte addr) :=
  if_pos h

/-- A byte of the output range reads as a free value while busy (R237). -/
theorem hostMemRead_output (inside : ¬ s.params.memBytes ≤ addr)
    (output : s.status.busy = true ∧ (pendingOutput s).Holds addr) :
    hostMemRead addr s = .next { s.reply (.byte (Config.freeByte s.draws)) with draws := s.draws + 1 } :=
  (if_neg inside).trans (if_pos output)

/-- Every other byte reads as it is (R237). -/
theorem hostMemRead_value (inside : ¬ s.params.memBytes ≤ addr)
    (value : ¬ (s.status.busy = true ∧ (pendingOutput s).Holds addr)) :
    hostMemRead addr s = .next (s.reply (.byte (s.mem.read addr))) :=
  (if_neg inside).trans (if_neg value)

/-- Beyond the buffer memory there is no byte to write (R50). -/
theorem hostMemWrite_beyond (h : s.params.memBytes ≤ addr) : hostMemWrite addr b s = .fault (.noSuchByte addr) :=
  if_pos h

/-- A write into an active range while busy is a violation (R237). -/
theorem hostMemWrite_active (inside : ¬ s.params.memBytes ≤ addr)
    (active : s.status.busy = true ∧ ((pendingInput s).Holds addr ∨ (pendingOutput s).Holds addr)) :
    hostMemWrite addr b s = .next s.markFault :=
  (if_neg inside).trans (if_pos active)

/-- Every other write stores its byte (R57, R237). -/
theorem hostMemWrite_stores (inside : ¬ s.params.memBytes ≤ addr)
    (free : ¬ (s.status.busy = true ∧ ((pendingInput s).Holds addr ∨ (pendingOutput s).Holds addr))) :
    hostMemWrite addr b s = .next { s with mem := s.mem.write addr b } :=
  (if_neg inside).trans (if_neg free)

end

/-! ## What a host register write leaves alone (R22 to R30) -/

section
variable (v : Word) (s : State) (r : Reg)

@[simp] theorem writeReg_params : (s.writeReg v r).params = s.params := by cases r <;> rfl
@[simp] theorem writeReg_csum : (s.writeReg v r).csum = s.csum := by cases r <;> rfl
@[simp] theorem writeReg_key : (s.writeReg v r).key = s.key := by cases r <;> rfl
@[simp] theorem writeReg_iv : (s.writeReg v r).iv = s.iv := by cases r <;> rfl
@[simp] theorem writeReg_hidden : (s.writeReg v r).hidden = s.hidden := by cases r <;> rfl
@[simp] theorem writeReg_mem : (s.writeReg v r).mem = s.mem := by cases r <;> rfl
@[simp] theorem writeReg_hfault : (s.writeReg v r).hfault = s.hfault := by cases r <;> rfl

/-- Only a write to `CMD` touches STATUS (R22, R23). -/
theorem writeReg_status : (s.writeReg v r).status = if r = .cmd then Status.started else s.status := by
  cases r <;> rfl

end

/-- The registers a host write never changes (R23, R27, R29, R30). -/
def isReadOnlyReg : Reg → Bool
  | .status => true
  | .dstLen => true
  | .csum => true
  | .reserved _ => true
  | .cmd => false
  | .srcAddr => false
  | .srcLen => false
  | .dstAddr => false
  | .blkLo => false
  | .blkHi => false

theorem writeReg_readOnly (v : Word) (s : State) {r : Reg} (h : isReadOnlyReg r = true) : s.writeReg v r = s := by
  cases r with
  | status => rfl
  | dstLen => rfl
  | csum => rfl
  | reserved => rfl
  | _ => cases h

/-- The offsets of the read-only and the reserved registers (R20). -/
theorem readOnly_of_offset : ∀ offset ∈ [0x04, 0x14, 0x20, 0x24, 0x28, 0x2C, 0x30, 0x34, 0x38, 0x3C],
    ∃ r ∈ regAt offset, isReadOnlyReg r = true := by
  decide

/-! ## Asserting reset (R230, R231) -/

/-- The range an asserted reset leaves open lies inside the buffer memory, or is empty (R231). -/
theorem abortedRange_valid (s : State) : (abortedRange s).Valid s.params.memBytes := by
  unfold abortedRange
  split
  · simp only [Range.Valid, Range.clip]
    omega
  · exact .inl rfl

theorem assertReset_hfault (s : State) : s.assertReset.hfault = s.hfault := rfl

/-! ## What a host operation can do -/

/-- The host-protocol violations (R21, R235 to R237). -/
def Violates (op : HostOp) (s : State) : Prop :=
  match op with
  | .regWrite width offset _ => s.status.busy = true ∨ ¬ RegAccessWellFormed width offset
  | .regRead width offset => ¬ RegAccessWellFormed width offset
  | .memWrite addr _ => s.status.busy = true ∧ ((pendingInput s).Holds addr ∨ (pendingOutput s).Holds addr)
  | .memRead _ => False
  | .reset => False

/-- The forms a host operation that answers a next state can leave (the table of R242). What a read returns is said by
`hostRegRead_value`, `hostRegRead_result`, `hostMemRead_value` and `hostMemRead_output`. -/
inductive HostActs : HostOp → State → State → Prop where
  | violation {op : HostOp} {s : State} (h : Violates op s) : HostActs op s s.markFault
  | regRead (width offset : Nat) (s : State) (r : Reply) (n : Nat) :
      HostActs (.regRead width offset) s { s.reply r with draws := n }
  | memRead (addr : Nat) (s : State) (r : Reply) (n : Nat) :
      HostActs (.memRead addr) s { s.reply r with draws := n }
  | regWrite {width offset : Nat} (v : Word) {s : State} {r : Reg} (reached : accessedReg width offset = some r)
      (idle : s.status.busy = false) : HostActs (.regWrite width offset v) s (s.writeReg v r)
  | memWrite {addr : Nat} (b : Byte) {s : State} (inside : addr < s.params.memBytes)
      (free : ¬ (s.status.busy = true ∧ ((pendingInput s).Holds addr ∨ (pendingOutput s).Holds addr))) :
      HostActs (.memWrite addr b) s { s with mem := s.mem.write addr b }
  | reset (s : State) : HostActs .reset s s.assertReset

theorem hostRegRead_acts {width offset : Nat} {s t : State} (h : hostRegRead width offset s = .next t) :
    HostActs (.regRead width offset) s t := by
  cases hr : accessedReg width offset with
  | none =>
    cases (hostRegRead_malformed hr).symm.trans h
    exact .violation ((accessedReg_eq_none_iff _ _).mp hr)
  | some r =>
    by_cases result : s.status.busy = true ∧ isResultReg r = true
    · cases (hostRegRead_result hr result).symm.trans h
      exact .regRead _ _ _ _ _
    · cases (hostRegRead_value hr result).symm.trans h
      exact .regRead _ _ s _ s.draws

theorem hostRegWrite_acts {width offset : Nat} {v : Word} {s t : State} (h : hostRegWrite width offset v s = .next t) :
    HostActs (.regWrite width offset v) s t := by
  by_cases busy : s.status.busy = true
  · cases (hostRegWrite_busy busy).symm.trans h
    exact .violation (.inl busy)
  · cases hr : accessedReg width offset with
    | none =>
      cases (hostRegWrite_malformed hr).symm.trans h
      exact .violation (.inr ((accessedReg_eq_none_iff _ _).mp hr))
    | some r =>
      have idle := Bool.eq_false_of_not_eq_true busy
      cases (hostRegWrite_idle hr idle).symm.trans h
      exact .regWrite v hr idle

theorem hostMemRead_acts {addr : Nat} {s t : State} (h : hostMemRead addr s = .next t) :
    HostActs (.memRead addr) s t := by
  by_cases beyond : s.params.memBytes ≤ addr
  · cases (hostMemRead_beyond beyond).symm.trans h
  · by_cases output : s.status.busy = true ∧ (pendingOutput s).Holds addr
    · cases (hostMemRead_output beyond output).symm.trans h
      exact .memRead _ _ _ _
    · cases (hostMemRead_value beyond output).symm.trans h
      exact .memRead _ s _ s.draws

theorem hostMemWrite_acts {addr : Nat} {b : Byte} {s t : State} (h : hostMemWrite addr b s = .next t) :
    HostActs (.memWrite addr b) s t := by
  by_cases beyond : s.params.memBytes ≤ addr
  · cases (hostMemWrite_beyond beyond).symm.trans h
  · by_cases active : s.status.busy = true ∧ ((pendingInput s).Holds addr ∨ (pendingOutput s).Holds addr)
    · cases (hostMemWrite_active beyond active).symm.trans h
      exact .violation active
    · cases (hostMemWrite_stores beyond active).symm.trans h
      exact .memWrite b (Nat.not_le.mp beyond) active

/-- A host operation that answers a next state answers one of those forms. -/
theorem acts_of_hostStep {op : HostOp} {s t : State} (h : hostStep op s = .next t) : HostActs op s t := by
  cases op with
  | regWrite width offset v => exact hostRegWrite_acts h
  | regRead width offset => exact hostRegRead_acts h
  | memWrite addr b => exact hostMemWrite_acts h
  | memRead addr => exact hostMemRead_acts h
  | reset =>
    cases h
    exact .reset s

/-- Nothing the host does but a violation changes `HFAULT` (R38). -/
theorem HostActs.violates_or_hfault_eq {op : HostOp} {s t : State} (h : HostActs op s t) :
    Violates op s ∨ t.hfault = s.hfault := by
  cases h with
  | violation h => exact .inl h
  | regRead => exact .inr rfl
  | memRead => exact .inr rfl
  | regWrite => exact .inr (writeReg_hfault ..)
  | memWrite => exact .inr rfl
  | reset => exact .inr (assertReset_hfault _)

/-- No host operation but reset writes `KEY`, `IV`, `CSUM` or the hidden state (R29, R31, R32, R39). -/
theorem HostActs.keeps_internal {op : HostOp} {s t : State} (h : HostActs op s t) (notReset : op ≠ .reset) :
    t.key = s.key ∧ t.iv = s.iv ∧ t.csum = s.csum ∧ t.hidden = s.hidden := by
  cases h with
  | violation => exact ⟨rfl, rfl, rfl, rfl⟩
  | regRead => exact ⟨rfl, rfl, rfl, rfl⟩
  | memRead => exact ⟨rfl, rfl, rfl, rfl⟩
  | regWrite => exact ⟨writeReg_key .., writeReg_iv .., writeReg_csum .., writeReg_hidden ..⟩
  | memWrite => exact ⟨rfl, rfl, rfl, rfl⟩
  | reset => exact absurd rfl notReset

/-- Every host operation keeps the invariant: a byte is stored only below `MEM_BYTES`, a `CMD` write starts a command
with the STATUS of R22, and reset leaves a range open inside the memory alone. -/
theorem HostActs.keeps_inv {op : HostOp} {s t : State} (h : HostActs op s t) (inv : s.Inv) : t.Inv := by
  obtain ⟨params_wf, mem_wf, mem_inside, status_legal, hidden_legal⟩ := inv
  cases h with
  | violation => exact ⟨params_wf, mem_wf, mem_inside, status_legal, hidden_legal⟩
  | regRead => exact ⟨params_wf, mem_wf, mem_inside, status_legal, hidden_legal⟩
  | memRead => exact ⟨params_wf, mem_wf, mem_inside, status_legal, hidden_legal⟩
  | @regWrite _ _ v _ r =>
    have status : (s.writeReg v r).status.Legal := by
      rw [writeReg_status]
      split
      · exact started_legal
      · exact status_legal
    exact ⟨by rwa [writeReg_params], by rwa [writeReg_mem], by rwa [writeReg_mem, writeReg_params], status,
      by rwa [writeReg_hidden]⟩
  | memWrite b inside =>
    exact ⟨params_wf, write_wf mem_wf _ b, writeBytes_inside mem_inside (.inr inside), status_legal, hidden_legal⟩
  | reset =>
    refine ⟨params_wf, writeBytes_wf mem_wf _ _, writeBytes_inside mem_inside ?_, afterReset_legal, blank_legal⟩
    rw [freeBytes_length]
    exact abortedRange_valid s

/-! ## What a completed command leaves -/

/-- An error keeps the invariant (R23, R207). -/
theorem State.Inv.raise {s : State} (inv : s.Inv) (e : ErrKind) : (s.raise e).Inv :=
  ⟨inv.params_wf, inv.mem_wf, inv.mem_inside, failed_legal e, inv.hidden_legal⟩

/-- Every command keeps the invariant: it writes memory only in a range it has checked, and leaves a legal STATUS and
legal hidden counters. -/
theorem Completes.keeps_inv {i : Instr} {s t : State} (h : Completes i s t) (inv : s.Inv) : t.Inv := by
  have ⟨params_wf, mem_wf, mem_inside, _, hidden_legal⟩ := inv
  have ⟨bcnt_le, bcnt_mod, _⟩ := hidden_legal
  cases h with
  | error _ _ e => exact inv.raise e
  | cfgKey => exact ⟨params_wf, mem_wf, mem_inside, completed_legal, hidden_legal⟩
  | cfgIv => exact ⟨params_wf, mem_wf, mem_inside, completed_legal, hidden_legal⟩
  | cfgDefault => exact ⟨params_wf, mem_wf, mem_inside, completed_legal, hidden_legal⟩
  | checksum => exact ⟨params_wf, mem_wf, mem_inside, completed_legal, hidden_legal⟩
  | encblk =>
    exact ⟨params_wf, mem_wf, mem_inside, completed_legal, bcnt_le, bcnt_mod, (encryptRounds_rnd _ _ _ _).le⟩
  | decblk =>
    exact ⟨params_wf, mem_wf, mem_inside, completed_legal, bcnt_le, bcnt_mod, (decryptRounds_rnd _ _ _ _).le⟩
  | encrypt _ usable =>
    obtain ⟨-, dst_valid, -⟩ := usable
    refine ⟨params_wf, writeBytes_wf mem_wf _ _, writeBytes_inside mem_inside ?_, completed_legal,
      encryptHidden_legal _ _ _ _⟩
    rw [encryptStream_length, State.bytesIn, readBytes_length]
    exact dst_valid
  | decrypt _ p length usable =>
    obtain ⟨-, dst_valid, -⟩ := usable
    refine ⟨params_wf, writeBytes_wf mem_wf _ _, writeBytes_inside mem_inside ?_, completed_legal,
      decryptHidden_legal _ _ _ _⟩
    rw [length]
    exact dst_valid
  | unverified _ usable =>
    obtain ⟨-, dst_valid, -⟩ := usable
    refine ⟨params_wf, writeBytes_wf mem_wf _ _, writeBytes_inside mem_inside ?_, failed_legal _,
      decryptHidden_legal _ _ _ _⟩
    rw [freeBytes_length]
    exact dst_valid

theorem Completes.hfault_eq {i : Instr} {s t : State} (h : Completes i s t) : t.hfault = s.hfault := by
  cases h <;> rfl

/-- Only CFG_KEY and CFG_DEFAULT write `KEY` (R31). -/
theorem Completes.key_eq {i : Instr} {s t : State} (h : Completes i s t) (other : i ∉ [Instr.cfgKey, .cfgDefault]) :
    t.key = s.key := by
  cases h with
  | cfgKey => exact absurd (by decide) other
  | cfgDefault => exact absurd (by decide) other
  | _ => rfl

/-- Only CFG_IV and CFG_DEFAULT write `IV` (R32). -/
theorem Completes.iv_eq {i : Instr} {s t : State} (h : Completes i s t) (other : i ∉ [Instr.cfgIv, .cfgDefault]) :
    t.iv = s.iv := by
  cases h with
  | cfgIv => exact absurd (by decide) other
  | cfgDefault => exact absurd (by decide) other
  | _ => rfl

/-- Only CHECKSUM writes `CSUM` (R29). -/
theorem Completes.csum_eq {i : Instr} {s t : State} (h : Completes i s t) (other : i ∉ [Instr.checksum]) :
    t.csum = s.csum := by
  cases h with
  | checksum => exact absurd (by decide) other
  | _ => rfl

/-- An error clears `DST_LEN`, ENCRYPT and DECRYPT set it to the length of their output, and every other command leaves
it (R27). -/
theorem Completes.dstLen_eq {i : Instr} {s t : State} (h : Completes i s t) :
    t.dstLen =
      if t.status.err = true then 0
      else if i = .encrypt then BitVec.ofNat 32 (framedLen s.srcLen.toNat)
      else if i = .decrypt then BitVec.ofNat 32 (s.srcLen.toNat - 4)
      else s.dstLen := by
  cases h <;> rfl

/-! ## The pending word -/

/-- A command word is put together from its fields (R70). -/
theorem wordOf_fieldsOf (w : Word) : wordOf (fieldsOf w) = w := by
  have := w.isLt
  apply BitVec.eq_of_toNat_eq
  refine (BitVec.toNat_append (w.extractLsb' 4 28) (w.extractLsb' 0 4)).trans ?_
  rw [← Nat.shiftLeft_add_eq_or_of_lt (BitVec.isLt _)]
  simp only [BitVec.extractLsb'_toNat, Nat.shiftRight_eq_div_pow, Nat.shiftLeft_eq]
  omega

theorem opcode_of_commandOfOpcode : ∀ (opc : BitVec 4), ∀ i ∈ commandOfOpcode opc, opcode i = opc := by decide

/-- A word that decodes to a command is that command's word (R71, R72). -/
theorem encode_of_decode {w : Word} {i : Instr} (h : decode w = .command i) : encode i = w := by
  unfold decode at h
  simp only at h
  split at h
  case isTrue => cases h
  case isFalse rsv =>
    split at h
    case h_1 j opc =>
      cases h
      have fields : fieldsOf w = { rsv := 0, opc := opcode i } := by
        rw [opcode_of_commandOfOpcode _ _ opc, ← not_not.mp rsv]
      rw [encode, ← fields, wordOf_fieldsOf]
    case h_2 => cases h

/-! ## What a step can do -/

/-- The engine has the next turn: its event comes first, or no event is left (log 2). -/
def EngineTurn (s : State) : Prop := s.events = [] ∨ ∃ rest, s.events = .engine :: rest

/-- The state once the next turn has been taken off the events. -/
def State.turnTaken (s : State) : State := { s with events := s.events.tail }

theorem turnTaken_of_nil {s : State} (h : s.events = []) : s.turnTaken = s := by
  cases s
  cases h
  rfl

theorem turnTaken_of_cons {s : State} {e : Event} {rest : List Event} (h : s.events = e :: rest) :
    s.turnTaken = { s with events := rest } := by
  rw [State.turnTaken, h, List.tail_cons]

/-- With `HFAULT = 0`, the engine's turn is its step (R239). -/
theorem step_engine {s : State} (unfaulted : s.hfault = false) (turn : EngineTurn s) :
    step s = engineStep s.turnTaken := by
  rcases turn with none | ⟨rest, first⟩
  · simp [step, unfaulted, none, turnTaken_of_nil none]
  · simp [step, unfaulted, first, turnTaken_of_cons first]

/-- With `HFAULT = 0`, a host event is that host operation (R7). -/
theorem step_host {s : State} {op : HostOp} {rest : List Event} (unfaulted : s.hfault = false)
    (first : s.events = .host op :: rest) : step s = hostStep op { s with events := rest } := by
  simp [step, unfaulted, first]

/-- The registers do not speak of the events. -/
theorem readReg_with_events (s : State) (rest : List Event) (r : Reg) :
    State.readReg { s with events := rest } r = s.readReg r := by
  cases r <;> rfl

section
variable {s : State} {rest : List Event} {width offset : Nat} {v : Word} {r : Reg}

/-- A 32-bit register write while idle (R22 to R30). -/
theorem step_writes (unfaulted : s.hfault = false) (idle : s.status.busy = false)
    (first : s.events = .host (.regWrite 32 offset v) :: rest) (reached : regAt offset = some r) :
    step s = .next (State.writeReg v { s with events := rest } r) :=
  (step_host unfaulted first).trans (hostRegWrite_idle reached idle)

/-- Any register write while busy (R235, R236). -/
theorem step_write_busy (unfaulted : s.hfault = false) (busy : s.status.busy = true)
    (first : s.events = .host (.regWrite width offset v) :: rest) :
    step s = .next { s with hfault := true, events := rest } :=
  (step_host unfaulted first).trans (hostRegWrite_busy busy)

/-- A 32-bit register read while idle, or of a register that is no result (R22 to R30, R238). -/
theorem step_reads (unfaulted : s.hfault = false) (first : s.events = .host (.regRead 32 offset) :: rest)
    (reached : regAt offset = some r) (value : s.status.busy = false ∨ isResultReg r = false) :
    step s = .next { s with replies := .word (s.readReg r) :: s.replies, events := rest } := by
  have notFree : ¬ (s.status.busy = true ∧ isResultReg r = true) := by
    rcases value with h | h <;> simp [h]
  rw [step_host unfaulted first, ← readReg_with_events s rest]
  exact hostRegRead_value (width := 32) reached notFree

end

/-- With `HFAULT = 1` the run has no further meaning (R38). -/
theorem step_faulted {s : State} (faulted : s.hfault = true) : step s = .fault .hostProtocol := by
  simp [step, faulted]

/-- Every turn is the engine's or a host operation. -/
theorem engineTurn_or_host (s : State) : EngineTurn s ∨ ∃ op rest, s.events = .host op :: rest := by
  unfold EngineTurn
  match s.events with
  | [] => exact .inl (.inl rfl)
  | .engine :: rest => exact .inl (.inr ⟨rest, rfl⟩)
  | .host op :: rest => exact .inr ⟨op, rest, rfl⟩

section
variable {s : State}

/-- The engine is not enabled while idle (R239). -/
theorem engineStep_idle (idle : s.status.busy = false) : engineStep s = .next s := by
  simp [engineStep, idle]

/-- The engine completes the pending command (R239). -/
theorem engineStep_command {i : Instr} (busy : s.status.busy = true) (pend : decode s.pend = .command i) :
    engineStep s = exec i s := by
  rw [engineStep, if_pos busy, completePending, pend]

/-- The engine reports an illegal pending word (R73, R204). -/
theorem engineStep_illegal {why : IllegalWord} (busy : s.status.busy = true) (pend : decode s.pend = .illegal why) :
    engineStep s = .next (s.raise .illegalCommand) := by
  rw [engineStep, if_pos busy, completePending, pend, completeIllegal]

end

/-- The forms the engine's turn can leave. -/
inductive EngineActs (s : State) : State → Prop where
  | idle (notBusy : s.status.busy = false) : EngineActs s s
  | illegal (busy : s.status.busy = true) (why : IllegalWord) (pend : decode s.pend = .illegal why) :
      EngineActs s (s.raise .illegalCommand)
  | command (busy : s.status.busy = true) (i : Instr) (pend : decode s.pend = .command i) (t : State)
      (done : Completes i s t) : EngineActs s t

theorem acts_of_engineStep {s t : State} (h : engineStep s = .next t) : EngineActs s t := by
  by_cases busy : s.status.busy = true
  · cases pend : decode s.pend with
    | command i =>
      rw [engineStep_command busy pend] at h
      exact .command busy i pend t (completes_of_exec h)
    | illegal why =>
      cases (engineStep_illegal busy pend).symm.trans h
      exact .illegal busy why pend
  · have idle := Bool.eq_false_of_not_eq_true busy
    cases (engineStep_idle idle).symm.trans h
    exact .idle idle

/-- What a step that answers a next state did: the engine's turn, or one host operation. -/
inductive Steps (s t : State) : Prop where
  | engine (turn : EngineTurn s) (acts : EngineActs s.turnTaken t) : Steps s t
  | host (op : HostOp) (rest : List Event) (first : s.events = .host op :: rest)
      (acts : HostActs op { s with events := rest } t) : Steps s t

/-- A step that answers a next state was taken with `HFAULT = 0`. -/
theorem unfaulted_of_step {s t : State} (h : step s = .next t) : s.hfault = false := by
  by_contra faulted
  rw [step_faulted (Bool.not_eq_false _ ▸ faulted)] at h
  cases h

theorem steps_of_step {s t : State} (h : step s = .next t) : Steps s t := by
  have unfaulted := unfaulted_of_step h
  rcases engineTurn_or_host s with turn | ⟨op, rest, first⟩
  · exact .engine turn (acts_of_engineStep (step_engine unfaulted turn ▸ h))
  · exact .host op rest first (acts_of_hostStep (step_host unfaulted first ▸ h))

theorem EngineActs.hfault_eq {s t : State} (h : EngineActs s t) : t.hfault = s.hfault := by
  cases h with
  | idle => rfl
  | illegal => rfl
  | command _ _ _ _ done => exact done.hfault_eq

/-- The engine's turn keeps the invariant. -/
theorem EngineActs.keeps_inv {s t : State} (h : EngineActs s t) (inv : s.Inv) : t.Inv := by
  cases h with
  | idle => exact inv
  | illegal => exact inv.raise _
  | command _ _ _ _ done => exact done.keeps_inv inv

/-- The invariant does not speak of the events. -/
theorem State.Inv.with_events {s : State} (inv : s.Inv) (rest : List Event) : State.Inv { s with events := rest } :=
  ⟨inv.params_wf, inv.mem_wf, inv.mem_inside, inv.status_legal, inv.hidden_legal⟩

/-- Where only the commands `writers` write a part of the state that an error leaves alone, the engine's turn changes it
only by completing one of their words. -/
theorem EngineActs.pend_of_changed {α : Type} {part : State → α} {writers : List Instr} {s t : State}
    (h : EngineActs s t) (raised : part (s.raise .illegalCommand) = part s)
    (others : ∀ i, Completes i s t → i ∉ writers → part t = part s) (changed : part t ≠ part s) :
    s.status.busy = true ∧ s.pend ∈ writers.map encode := by
  cases h with
  | idle => exact absurd rfl changed
  | illegal => exact absurd raised changed
  | command busy i pend _ done =>
    have writer : i ∈ writers := by
      by_contra other
      exact changed (others i done other)
    exact ⟨busy, encode_of_decode pend ▸ List.mem_map_of_mem writer⟩

/-! ## `KEY`, `IV` and the hidden state are not for the host -/

/-- A next state changed by `f`; a stop left as it is. -/
def mapNext (f : State → State) : Host.Outcome State Fault Refusal → Host.Outcome State Fault Refusal
  | .next t => .next (f t)
  | .fault r => .fault r
  | .refused r => .refused r

@[simp] theorem mapNext_next (f : State → State) (t : State) : mapNext f (.next t) = .next (f t) := rfl
@[simp] theorem mapNext_fault (f : State → State) (r : Fault) : mapNext f (.fault r) = .fault r := rfl
@[simp] theorem mapNext_refused (f : State → State) (r : Refusal) : mapNext f (.refused r) = .refused r := rfl

/-- A state with the parts in place of its own that no host operation but reset reads or writes (R31, R32, R39). -/
def State.withInternal (k : Key) (v : Block) (h : Hidden) (s : State) : State :=
  { s with key := k, iv := v, hidden := h }

theorem writeReg_withInternal (k : Key) (v : Block) (h : Hidden) (w : Word) (s : State) (r : Reg) :
    (s.withInternal k v h).writeReg w r = (s.writeReg w r).withInternal k v h := by
  cases r <;> rfl

theorem readReg_withInternal (k : Key) (v : Block) (h : Hidden) (s : State) (r : Reg) :
    (s.withInternal k v h).readReg r = s.readReg r := by
  cases r <;> rfl

section
variable (k : Key) (v : Block) (h : Hidden) (s : State)

theorem hostRegRead_withInternal (width offset : Nat) :
    hostRegRead width offset (s.withInternal k v h) =
      mapNext (State.withInternal k v h) (hostRegRead width offset s) := by
  cases hr : accessedReg width offset with
  | none => rw [hostRegRead_malformed hr, hostRegRead_malformed hr]; rfl
  | some r =>
    by_cases result : s.status.busy = true ∧ isResultReg r = true
    · rw [hostRegRead_result hr result, hostRegRead_result hr (s := s.withInternal k v h) result]; rfl
    · rw [hostRegRead_value hr result, hostRegRead_value hr (s := s.withInternal k v h) result, readReg_withInternal]
      rfl

theorem hostRegWrite_withInternal (width offset : Nat) (w : Word) :
    hostRegWrite width offset w (s.withInternal k v h) =
      mapNext (State.withInternal k v h) (hostRegWrite width offset w s) := by
  by_cases busy : s.status.busy = true
  · rw [hostRegWrite_busy busy, hostRegWrite_busy (s := s.withInternal k v h) busy]; rfl
  · cases hr : accessedReg width offset with
    | none => rw [hostRegWrite_malformed hr, hostRegWrite_malformed hr]; rfl
    | some r =>
      have idle := Bool.eq_false_of_not_eq_true busy
      rw [hostRegWrite_idle hr idle, hostRegWrite_idle hr (s := s.withInternal k v h) idle, writeReg_withInternal]
      rfl

theorem hostMemRead_withInternal (addr : Nat) :
    hostMemRead addr (s.withInternal k v h) = mapNext (State.withInternal k v h) (hostMemRead addr s) := by
  by_cases beyond : s.params.memBytes ≤ addr
  · rw [hostMemRead_beyond beyond, hostMemRead_beyond (s := s.withInternal k v h) beyond]; rfl
  · by_cases output : s.status.busy = true ∧ (pendingOutput s).Holds addr
    · rw [hostMemRead_output beyond output, hostMemRead_output (s := s.withInternal k v h) beyond output]; rfl
    · rw [hostMemRead_value beyond output, hostMemRead_value (s := s.withInternal k v h) beyond output]; rfl

theorem hostMemWrite_withInternal (addr : Nat) (b : Byte) :
    hostMemWrite addr b (s.withInternal k v h) = mapNext (State.withInternal k v h) (hostMemWrite addr b s) := by
  by_cases beyond : s.params.memBytes ≤ addr
  · rw [hostMemWrite_beyond beyond, hostMemWrite_beyond (s := s.withInternal k v h) beyond]; rfl
  · by_cases active : s.status.busy = true ∧ ((pendingInput s).Holds addr ∨ (pendingOutput s).Holds addr)
    · rw [hostMemWrite_active beyond active, hostMemWrite_active (s := s.withInternal k v h) beyond active]; rfl
    · rw [hostMemWrite_stores beyond active, hostMemWrite_stores (s := s.withInternal k v h) beyond active]; rfl

/-- Every host operation but reset does the same whatever `KEY`, `IV` and the hidden state hold. -/
theorem hostStep_withInternal {op : HostOp} (notReset : op ≠ .reset) :
    hostStep op (s.withInternal k v h) = mapNext (State.withInternal k v h) (hostStep op s) := by
  cases op with
  | regWrite width offset w => exact hostRegWrite_withInternal k v h s width offset w
  | regRead width offset => exact hostRegRead_withInternal k v h s width offset
  | memWrite addr b => exact hostMemWrite_withInternal k v h s addr b
  | memRead addr => exact hostMemRead_withInternal k v h s addr
  | reset => exact absurd rfl notReset

end

/-! ## What an operation leaves in the hidden state is never seen again -/

/-- Two outcomes that differ at most in the hidden state of the next state. -/
def SameButHidden (a b : Host.Outcome State Fault Refusal) : Prop :=
  mapNext State.withoutHidden a = mapNext State.withoutHidden b

theorem hostStep_withoutHidden (op : HostOp) (s : State) :
    SameButHidden (hostStep op s.withoutHidden) (hostStep op s) := by
  by_cases reset : op = .reset
  · subst reset; rfl
  · have same : hostStep op s.withoutHidden = _ := hostStep_withInternal s.key s.iv Hidden.blank s reset
    rw [SameButHidden, same]
    cases h : hostStep op s with
    | next t =>
      obtain ⟨key, iv, -, -⟩ := (acts_of_hostStep h).keeps_internal reset
      simp [State.withInternal, State.withoutHidden, key, iv]
    | fault => rfl
    | refused => rfl

theorem SameButHidden.next {a b : State} (h : a.withoutHidden = b.withoutHidden) : SameButHidden (.next a) (.next b) :=
  congrArg Host.Outcome.next h

theorem SameButHidden.of_next {a : Host.Outcome State Fault Refusal} {t : State} (h : SameButHidden a (.next t)) :
    ∃ u, a = .next u ∧ u.withoutHidden = t.withoutHidden := by
  cases a with
  | next u => exact ⟨u, rfl, Host.Outcome.next.inj h⟩
  | fault => cases h
  | refused => cases h

theorem SameButHidden.of_fault {a : Host.Outcome State Fault Refusal} {f : Fault} (h : SameButHidden a (.fault f)) :
    a = .fault f := by
  cases a with
  | next => cases h
  | fault => exact h
  | refused => cases h

theorem SameButHidden.of_refused {a : Host.Outcome State Fault Refusal} {r : Refusal}
    (h : SameButHidden a (.refused r)) : a = .refused r := by
  cases a with
  | next => cases h
  | fault => cases h
  | refused => exact h

theorem withoutHidden_ite {c : Prop} [Decidable c] {a b a' b' : State} (ha : a.withoutHidden = a'.withoutHidden)
    (hb : b.withoutHidden = b'.withoutHidden) :
    (if c then a else b).withoutHidden = (if c then a' else b').withoutHidden := by
  split
  · exact ha
  · exact hb

/-- No command reads what an earlier operation left in the hidden state (R39): its checks and its result are those of
the state without it. -/
theorem exec_withoutHidden (i : Instr) (s : State) : SameButHidden (exec i s.withoutHidden) (exec i s) := by
  cases i with
  | cfgKey => exact .next (withoutHidden_ite rfl (withoutHidden_ite rfl rfl))
  | cfgIv => exact .next (withoutHidden_ite rfl (withoutHidden_ite rfl rfl))
  | cfgDefault => rfl
  | encrypt => exact .next (withoutHidden_ite rfl rfl)
  | decrypt => exact .next (withoutHidden_ite rfl (withoutHidden_ite rfl rfl))
  | checksum => exact .next (withoutHidden_ite rfl (withoutHidden_ite rfl rfl))
  | encblk => exact .next rfl
  | decblk => exact .next rfl

theorem engineStep_withoutHidden (s : State) : SameButHidden (engineStep s.withoutHidden) (engineStep s) := by
  by_cases busy : s.status.busy = true
  · cases pend : decode s.pend with
    | command i =>
      rw [engineStep_command busy pend, engineStep_command (s := s.withoutHidden) busy pend]
      exact exec_withoutHidden i s
    | illegal =>
      rw [engineStep_illegal busy pend, engineStep_illegal (s := s.withoutHidden) busy pend]
      rfl
  · have idle := Bool.eq_false_of_not_eq_true busy
    rw [engineStep_idle idle, engineStep_idle (s := s.withoutHidden) idle]
    rfl

theorem step_withoutHidden (s : State) : SameButHidden (step s.withoutHidden) (step s) := by
  by_cases faulted : s.hfault = true
  · rw [step_faulted faulted, step_faulted (s := s.withoutHidden) faulted]; rfl
  · have unfaulted := Bool.eq_false_of_not_eq_true faulted
    rcases engineTurn_or_host s with turn | ⟨op, rest, first⟩
    · rw [step_engine unfaulted turn, step_engine (s := s.withoutHidden) unfaulted turn]
      exact engineStep_withoutHidden s.turnTaken
    · rw [step_host unfaulted first, step_host (s := s.withoutHidden) unfaulted first]
      exact hostStep_withoutHidden op { s with events := rest }

/-- Runs of any length from states that differ only in the hidden state end alike. -/
theorem run_sameButHidden (n : Nat) {s u : State} (h : u.withoutHidden = s.withoutHidden) :
    SameButHidden (core.run n u) (core.run n s) := by
  induction n generalizing s u with
  | zero => exact .next h
  | succ n ih =>
    have same : SameButHidden (step u) (step s) := by
      calc
        _ = mapNext State.withoutHidden (step u.withoutHidden) := (step_withoutHidden u).symm
        _ = mapNext State.withoutHidden (step s.withoutHidden) := by rw [h]
        _ = _ := step_withoutHidden s
    cases hs : step s with
    | next t =>
      rw [hs] at same
      obtain ⟨v, hv, alike⟩ := same.of_next
      rw [run_next hs, run_next hv]
      exact ih alike
    | fault =>
      rw [hs] at same
      rw [run_fault hs, run_fault same.of_fault]
      rfl
    | refused =>
      rw [hs] at same
      rw [run_refused hs, run_refused same.of_refused]
      rfl

/-! ## The obligations -/

/-- Settles O58: runs from states that agree but for the hidden state end alike, by induction over the steps. -/
theorem hiddenStateIsNeverSeen : Obligations.HiddenStateIsNeverSeen := by
  intro n s h
  have same := run_sameButHidden n (withoutHidden_with_hidden s h)
  exact ⟨fun t ht => (ht ▸ same).of_next, fun f hf => (hf ▸ same).of_fault⟩

/-- Settles O57: the engine's turn keeps the invariant, and so does every host operation. -/
theorem everyStepKeepsTheInvariant : Obligations.EveryStepKeepsTheInvariant := by
  intro s t inv h
  cases steps_of_step h with
  | engine _ acts => exact acts.keeps_inv (inv.with_events _)
  | host _ rest _ acts => exact acts.keeps_inv (inv.with_events rest)

/-- Settles O54: the engine leaves `HFAULT` alone, and a host operation sets it only by a violation. -/
theorem onlyViolationsSetHfault : Obligations.OnlyViolationsSetHfault := by
  intro s t h after
  have changed : t.hfault ≠ s.hfault := by simp [after, unfaulted_of_step h]
  cases steps_of_step h with
  | engine _ acts => exact absurd acts.hfault_eq changed
  | host op rest first acts =>
    have violates : Violates op { s with events := rest } := acts.violates_or_hfault_eq.resolve_right changed
    exact ⟨op, rest, first, by cases op <;> exact violates⟩

/-- Settles O35: by the commands that write them, and by what a host operation keeps. -/
theorem keyIvCsumChangeOnlyByTheirCommandsOrReset : Obligations.KeyIvCsumChangeOnlyByTheirCommandsOrReset := by
  intro s t h
  cases steps_of_step h with
  | engine turn acts =>
    exact
      ⟨fun changed => .inl ⟨turn, acts.pend_of_changed rfl (fun _ => Completes.key_eq) changed⟩,
        fun changed => .inl ⟨turn, acts.pend_of_changed rfl (fun _ => Completes.iv_eq) changed⟩,
        fun changed => .inl ⟨turn, acts.pend_of_changed rfl (fun _ => Completes.csum_eq) changed⟩⟩
  | host op rest first acts =>
    by_cases reset : op = .reset
    · subst reset
      exact ⟨fun _ => .inr ⟨rest, first⟩, fun _ => .inr ⟨rest, first⟩, fun _ => .inr ⟨rest, first⟩⟩
    · obtain ⟨key, iv, csum, -⟩ := acts.keeps_internal reset
      exact ⟨fun changed => absurd key changed, fun changed => absurd iv changed, fun changed => absurd csum changed⟩

/-- Settles O33: an error clears `DST_LEN`, a success sets it or leaves it, and the host's writes to it are ignored. -/
theorem dstLenIsWrittenByTheEngineOnly : Obligations.DstLenIsWrittenByTheEngineOnly := by
  refine ⟨rfl, fun i s t h => ?_, fun s v rest unfaulted idle first => ?_⟩
  · have dstLen := (completes_of_exec h).dstLen_eq
    refine ⟨fun err => ?_, fun ok hi => ?_, fun ok hi => ?_, fun ok he hd => ?_⟩
    · rw [dstLen, if_pos err]
    · simp [dstLen, ok, hi]
    · simp [dstLen, ok, hi]
    · simp [dstLen, ok, he, hd]
  · exact step_writes unfaulted idle first (r := .dstLen) rfl

/-- Settles O55: each host operation but reset commutes with a change of `KEY` and `IV`, and keeps both. -/
theorem hostCannotReadKeyOrIv : Obligations.HostCannotReadKeyOrIv := by
  intro s k v op notReset
  have same : hostStep op { s with key := k, iv := v } = _ := hostStep_withInternal k v s.hidden s notReset
  rw [same]
  refine ⟨fun t h => ?_, fun f h => by rw [h, mapNext_fault]⟩
  obtain ⟨key, iv, -, hidden⟩ := (acts_of_hostStep h).keeps_internal notReset
  refine ⟨key, iv, ?_⟩
  rw [h, ← hidden, mapNext_next]
  rfl

/-- Settles O41: reset leaves `HFAULT` alone, and a reset event is `State.assertReset`. -/
theorem resetEventAndHfault : Obligations.ResetEventAndHfault :=
  fun s => ⟨assertReset_hfault s, fun _ unfaulted first => step_host unfaulted first⟩

/-- Settles O43: the three accesses to `CMD`. -/
theorem cmdRegister : Obligations.CmdRegister :=
  fun _ _ _ unfaulted =>
    ⟨fun idle first => step_writes unfaulted idle first (r := .cmd) rfl,
      fun first => step_reads unfaulted first (r := .cmd) rfl (.inr rfl),
      fun busy first => step_write_busy unfaulted busy first⟩

/-- Settles O44: the value of the word bit by bit, over all values of the four fields. -/
theorem statusWordLayout : Obligations.StatusWordLayout := by
  have layout : ∀ (busy done err : Bool) (code : BitVec 3),
      (Status.word ⟨busy, done, err, code⟩).toNat =
        busy.toNat + 2 * done.toNat + 4 * err.toNat + 16 * code.toNat := by decide
  exact fun t => layout t.busy t.done t.err t.errCode

/-- Settles O45: what each register makes of a write. -/
theorem idleRegisterWrites : Obligations.IdleRegisterWrites := by
  intro s v rest offset unfaulted idle first
  have writes {r : Reg} (h : regAt offset = some r) := step_writes unfaulted idle first h
  refine ⟨?_, ?_, ?_, ?_, ?_, fun ignored => ?_⟩
  · rintro rfl; exact writes (r := .srcAddr) rfl
  · rintro rfl; exact writes (r := .srcLen) rfl
  · rintro rfl; exact writes (r := .dstAddr) rfl
  · rintro rfl; exact writes (r := .blkLo) rfl
  · rintro rfl; exact writes (r := .blkHi) rfl
  · obtain ⟨r, hr, readOnly⟩ := readOnly_of_offset offset ignored
    rw [writes hr, writeReg_readOnly _ _ readOnly]

/-- Settles O46: the value of each register. -/
theorem idleRegisterReads : Obligations.IdleRegisterReads := by
  intro s rest offset v unfaulted idle first entry
  have value : (regAt offset).map s.readReg = some v := by
    simp only [List.mem_cons, Prod.mk.injEq, List.not_mem_nil, or_false] at entry
    casesm* _ ∨ _, _ ∧ _ <;> subst_vars <;> rfl
  obtain ⟨r, hr, rfl⟩ := Option.map_eq_some_iff.mp value
  exact step_reads unfaulted first hr (.inl idle)

/-- Settles O49: an access of a forbidden shape reaches no register. -/
theorem malformedRegisterAccessFaults : Obligations.MalformedRegisterAccessFaults := by
  intro s rest width offset v unfaulted shape access
  have none : accessedReg width offset = none := (accessedReg_eq_none_iff _ _).mpr (by omega)
  rcases access with first | first
  · exact (step_host unfaulted first).trans (hostRegRead_malformed none)
  · exact (step_host unfaulted first).trans (hostRegWrite_malformed none)

end Sys2Proof.Machine
end

section
/-! PROOFS. The statements of `20_memory.md`: the ranges a command writes and reads (R58 to R60), and host accesses
beyond the buffer memory (R50). -/

namespace Sys2Proof.Machine

/-! ## Ranges -/

theorem not_holds_empty (x : Nat) : ¬ Range.empty.Holds x := fun ⟨_, below⟩ => Nat.not_lt_zero x below

/-- Ranges that do not overlap share no address (R59). -/
theorem not_holds_of_not_overlaps {r q : Range} (apart : ¬ r.Overlaps q) {x : Nat} (h : r.Holds x) : ¬ q.Holds x := by
  simp only [Range.Overlaps, Range.Holds] at apart h ⊢
  omega

/-- Inside the written range a read does not depend on what memory held before (R51). -/
theorem read_writeBytes_congr {m m' : Memory} {bs : List Byte} {r : Range} (length : bs.length = r.len) {x : Nat}
    (h : r.Holds x) : (m'.writeBytes r.base bs).read x = (m.writeBytes r.base bs).read x := by
  rw [read_writeBytes, read_writeBytes, length, if_pos h, if_pos h]

/-- Outside the written range a read gives the byte of before (R51). -/
theorem read_writeBytes_of_not_holds {m : Memory} {bs : List Byte} {r : Range} (length : bs.length = r.len) {x : Nat}
    (h : ¬ r.Holds x) : (m.writeBytes r.base bs).read x = m.read x := by
  rw [read_writeBytes, length, if_neg h]

/-! ## What a command writes -/

/-- The output of ENCRYPT fills its output range (R58, R127). -/
theorem encryptStream_fills (s : State) :
    (encryptStream s.params.delta (s.bytesIn (inputRange .encrypt s)) s.key s.iv).length =
      (outputRange .encrypt s).len := by
  rw [encryptStream_length, State.bytesIn, readBytes_length, inputRange, outputRange]

/-- The body DECRYPT verifies fills its output range (R58, R128). -/
theorem decryptStream_fills {s : State} {p : List Byte}
    (h : decryptStream s.params.delta (s.bytesIn (inputRange .decrypt s)) s.key s.iv = .ok p) :
    p.length = (outputRange .decrypt s).len := by
  have length : (s.bytesIn (inputRange .decrypt s)).length = s.srcLen.toNat := readBytes_length _ _ _
  rcases decryptStream_cases s.params.delta (s.bytesIn (inputRange .decrypt s)) s.key s.iv with
    ⟨_, bad⟩ | ⟨_, _, bad | ⟨q, fills, ok⟩⟩
  · cases h.symm.trans bad
  · cases h.symm.trans bad
  · cases h.symm.trans ok
    rw [fills, length, outputRange]

/-- A command leaves memory as it was, or fills its output range, then apart from its input range (R59, R60). -/
theorem Completes.mem_cases {i : Instr} {s t : State} (h : Completes i s t) :
    t.mem = s.mem ∨
    (¬ (inputRange i s).Overlaps (outputRange i s) ∧
      ∃ bs, bs.length = (outputRange i s).len ∧ t.mem = s.mem.writeBytes (outputRange i s).base bs) := by
  cases h with
  | encrypt _ usable => exact .inr ⟨usable.2.2, _, encryptStream_fills s, rfl⟩
  | decrypt _ p fills usable => exact .inr ⟨usable.2.2, p, fills, rfl⟩
  | unverified _ usable => exact .inr ⟨usable.2.2, _, freeBytes_length _ _, rfl⟩
  | _ => exact .inl rfl

/-! ## What a command reads -/

/-- A state with the buffer memory `m` in place of its own. -/
def State.withMem (m : Memory) (s : State) : State := { s with mem := m }

/-- `u` is `t` but for memory and, where `t` has no error, holds the same bytes in the range `r`. -/
def SameOutput (r : Range) (u t : State) : Prop :=
  u.withMem t.mem = t ∧ (t.status.err = false → ∀ x, r.Holds x → u.mem.read x = t.mem.read x)

/-- After an error, memory is not compared. -/
theorem SameOutput.raise (r : Range) (e : ErrKind) (m : Memory) (s : State) :
    SameOutput r ((s.withMem m).raise e) (s.raise e) :=
  ⟨rfl, fun ok => by cases ok⟩

/-- A command without an output range need only end the same way. -/
theorem SameOutput.of_empty {u t : State} (h : u.withMem t.mem = t) : SameOutput Range.empty u t :=
  ⟨h, fun _ x hx => absurd hx (not_holds_empty x)⟩

theorem SameOutput.ite {c : Prop} [Decidable c] {r : Range} {a b a' b' : State} (ha : SameOutput r a a')
    (hb : SameOutput r b b') : SameOutput r (if c then a else b) (if c then a' else b') := by
  split
  · exact ha
  · exact hb

theorem inputRange_withMem (i : Instr) (m : Memory) (s : State) : inputRange i (s.withMem m) = inputRange i s := by
  cases i <;> rfl

/-- A command looks at memory only through the bytes of its input range: on another memory with the same bytes there its
checks take the same branch, and what it computes is the same. -/
theorem exec_withMem {i : Instr} {s : State} {m : Memory}
    (bytes : (s.withMem m).bytesIn (inputRange i (s.withMem m)) = s.bytesIn (inputRange i s)) :
    ∃ u t, exec i (s.withMem m) = .next u ∧ exec i s = .next t ∧ SameOutput (outputRange i s) u t := by
  cases i with
  | cfgKey => exact ⟨_, _, rfl, rfl, .ite (.raise ..) (.ite (.raise ..) (.of_empty (by rw [bytes]; rfl)))⟩
  | cfgIv => exact ⟨_, _, rfl, rfl, .ite (.raise ..) (.ite (.raise ..) (.of_empty (by rw [bytes]; rfl)))⟩
  | cfgDefault => exact ⟨_, _, rfl, rfl, .of_empty rfl⟩
  | encrypt =>
    refine ⟨_, _, rfl, rfl, .ite (.raise ..) ?_⟩
    rw [bytes]
    exact ⟨rfl, fun _ _ => read_writeBytes_congr (encryptStream_fills s)⟩
  | decrypt =>
    refine ⟨_, _, rfl, rfl, .ite (.raise ..) (.ite (.raise ..) ?_)⟩
    rw [bytes]
    dsimp only [State.withMem]
    cases verdict : decryptStream s.params.delta (s.bytesIn (inputRange .decrypt s)) s.key s.iv with
    | ok p => exact ⟨rfl, fun _ _ => read_writeBytes_congr (decryptStream_fills verdict)⟩
    | error => exact ⟨rfl, fun ok => by cases ok⟩
  | checksum => exact ⟨_, _, rfl, rfl, .ite (.raise ..) (.ite (.raise ..) (.of_empty (by rw [bytes]; rfl)))⟩
  | encblk => exact ⟨_, _, rfl, rfl, .of_empty rfl⟩
  | decblk => exact ⟨_, _, rfl, rfl, .of_empty rfl⟩

/-! ## The obligations -/

/-- Settles O36: memory is as before outside the one range a command fills, and that range is apart from its input. -/
theorem commandsWriteOnlyTheirOutputRange : Obligations.CommandsWriteOnlyTheirOutputRange := by
  intro i s t h
  rcases (completes_of_exec h).mem_cases with same | ⟨apart, bs, fills, written⟩
  · exact ⟨fun _ _ => by rw [same], fun _ _ => by rw [same]⟩
  · have outside : ∀ x, ¬ (outputRange i s).Holds x → t.mem.read x = s.mem.read x := fun x hx => by
      rw [written, read_writeBytes_of_not_holds fills hx]
    exact ⟨outside, fun x hx => outside x (not_holds_of_not_overlaps apart hx)⟩

/-- Settles O37: memories that agree on the input range give the command the same bytes to read. -/
theorem commandsReadOnlyTheirInputRange : Obligations.CommandsReadOnlyTheirInputRange := by
  intro i s t m h agree
  have bytes : (s.withMem m).bytesIn (inputRange i (s.withMem m)) = s.bytesIn (inputRange i s) := by
    rw [inputRange_withMem]
    exact readBytes_congr fun x low high => agree x ⟨low, high⟩
  obtain ⟨u, t', hu, ht, same, output⟩ := exec_withMem bytes
  cases h.symm.trans ht
  exact ⟨u, hu, same, output⟩

/-- Settles O53: beyond the buffer memory there is no byte to read or write. -/
theorem hostAccessBeyondMemoryStops : Obligations.HostAccessBeyondMemoryStops := by
  intro s rest x b unfaulted beyond access
  rcases access with first | first
  · exact (step_host unfaulted first).trans (hostMemRead_beyond beyond)
  · exact (step_host unfaulted first).trans (hostMemWrite_beyond beyond)

end Sys2Proof.Machine
end

section
/-! PROOFS. The statements of `30_encoding.md`: the command word and the opcode map (R70 to R73), the frame of all
commands (R74), the host's `wait` (R77) and the register offsets (R78). -/

namespace Sys2Proof.Machine

/-! ## Decoding and encoding a command -/

theorem decodeEncode_statement (i : Instr) : Laws.DecodeEncode.Statement i :=
  match i with
  | .cfgKey => Laws.DecodeEncode.cfgKey
  | .cfgIv => Laws.DecodeEncode.cfgIv
  | .cfgDefault => Laws.DecodeEncode.cfgDefault
  | .encrypt => Laws.DecodeEncode.encrypt
  | .decrypt => Laws.DecodeEncode.decrypt
  | .checksum => Laws.DecodeEncode.checksum
  | .encblk => Laws.DecodeEncode.encblk
  | .decblk => Laws.DecodeEncode.decblk

theorem decode_encode (i : Instr) : decode (encode i) = .command i := by
  obtain ⟨-, -, decoded⟩ := decodeEncode_statement i
  exact decoded

/-- A word is a command exactly when it is that command's word (R71, R72). -/
theorem decode_eq_command_iff (w : Word) (i : Instr) : decode w = .command i ↔ w = encode i := by
  refine ⟨fun h => (encode_of_decode h).symm, ?_⟩
  rintro rfl
  exact decode_encode i

/-! ## Illegal words -/

theorem fieldsOf_rsv_toNat (w : Word) : (fieldsOf w).rsv.toNat = w.toNat / 16 := by
  have := w.isLt
  simp only [fieldsOf, BitVec.extractLsb'_toNat, Nat.shiftRight_eq_div_pow]
  omega

theorem fieldsOf_opc_toNat (w : Word) : (fieldsOf w).opc.toNat = w.toNat % 16 := by
  simp [fieldsOf]

theorem rsv_eq_zero_iff (w : Word) : (fieldsOf w).rsv = 0 ↔ w.toNat / 16 = 0 := by
  rw [← fieldsOf_rsv_toNat]
  exact BitVec.toNat_inj.symm

theorem commandOfOpcode_eq_none_iff :
    ∀ opc : BitVec 4, commandOfOpcode opc = none ↔ opc.toNat = 0 ∨ 9 ≤ opc.toNat := by decide

/-- What the decoder rejects, by the fields of the word (R71). -/
theorem decode_illegal_iff_fields (w : Word) :
    (∃ why, decode w = .illegal why) ↔ (fieldsOf w).rsv ≠ 0 ∨ commandOfOpcode (fieldsOf w).opc = none := by
  unfold decode
  by_cases rsv : (fieldsOf w).rsv = 0
  · cases opc : commandOfOpcode (fieldsOf w).opc <;> simp [rsv, opc]
  · exact iff_of_true ⟨.reservedBits, if_pos rsv⟩ (.inl rsv)

/-- What the decoder rejects, by the value of the word (R73). -/
theorem decode_illegal_iff (w : Word) :
    (∃ why, decode w = .illegal why) ↔ (w.toNat / 16 ≠ 0 ∨ w.toNat % 16 = 0 ∨ 9 ≤ w.toNat % 16) := by
  rw [decode_illegal_iff_fields, commandOfOpcode_eq_none_iff, fieldsOf_opc_toNat, Ne, rsv_eq_zero_iff]

/-- At the engine's turn an illegal pending word is reported, and nothing else happens (R73, R204). -/
theorem step_illegal {s : State} {why : IllegalWord} (unfaulted : s.hfault = false) (busy : s.status.busy = true)
    (turn : EngineTurn s) (pend : decode s.pend = .illegal why) :
    step s = .next (s.turnTaken.raise .illegalCommand) :=
  (step_engine unfaulted turn).trans (engineStep_illegal (s := s.turnTaken) busy pend)

/-! ## Register offsets -/

/-- A register is the one at its offset (R20, R78). -/
theorem regAt_offset (r : Reg) : regAt r.offset = some r := by
  cases r with
  | reserved slot => revert slot; decide
  | _ => rfl

/-- An offset names a register exactly when it is 4-aligned and inside the register space (R20). -/
theorem regAt_eq_some_iff_aligned (offset : Nat) :
    (∃ r, regAt offset = some r) ↔ offset % 4 = 0 ∧ offset < 0x40 := by
  have reached : accessedReg 32 offset = regAt offset := if_pos rfl
  have none := accessedReg_eq_none_iff 32 offset
  rw [← Option.ne_none_iff_exists', ← reached, Ne, none, not_not, RegAccessWellFormed]
  exact and_iff_right rfl

/-! ## What a completed command leaves alone -/

/-- No command writes its operand registers, the pending word, the parameters, `HFAULT` or what the host has done and
will do (R24 to R26, R74). -/
theorem Completes.keeps_operands {i : Instr} {s t : State} (h : Completes i s t) :
    t.srcAddr = s.srcAddr ∧ t.srcLen = s.srcLen ∧ t.dstAddr = s.dstAddr ∧ t.pend = s.pend ∧ t.params = s.params ∧
      t.hfault = s.hfault ∧ t.events = s.events ∧ t.replies = s.replies := by
  cases h <;> exact ⟨rfl, rfl, rfl, rfl, rfl, rfl, rfl, rfl⟩

/-- Only ENCBLK and DECBLK write the `BLK` words (R28). -/
theorem Completes.blk_eq {i : Instr} {s t : State} (h : Completes i s t) (other : i ∉ [Instr.encblk, .decblk]) :
    t.blkLo = s.blkLo ∧ t.blkHi = s.blkHi := by
  cases h with
  | encblk => exact absurd (by decide) other
  | decblk => exact absurd (by decide) other
  | _ => exact ⟨rfl, rfl⟩

/-- Only ENCRYPT and DECRYPT write memory (R60). -/
theorem Completes.mem_eq {i : Instr} {s t : State} (h : Completes i s t) (other : i ∉ [Instr.encrypt, .decrypt]) :
    t.mem = s.mem := by
  cases h with
  | encrypt => exact absurd (by decide) other
  | decrypt => exact absurd (by decide) other
  | unverified => exact absurd (by decide) other
  | _ => rfl

/-! ## The engine's turn completes the pending word, whatever the host does before and after -/

/-- A completed command has `BUSY = 0` and `DONE = 1` (R104, R207). -/
theorem Completes.busy_done {i : Instr} {s t : State} (h : Completes i s t) :
    t.status.busy = false ∧ t.status.done = true := by
  cases h <;> exact ⟨rfl, rfl⟩

/-- The engine's turn with a pending word, legal or not, ends with `BUSY = 0` and `DONE = 1` (R239). -/
theorem EngineActs.busy_done {s t : State} (h : EngineActs s t) (busy : s.status.busy = true) :
    t.status.busy = false ∧ t.status.done = true := by
  cases h with
  | idle notBusy => exact absurd busy (Bool.eq_false_iff.mp notBusy)
  | illegal => exact ⟨rfl, rfl⟩
  | command _ _ _ _ done => exact done.busy_done

theorem EngineActs.events_eq {s t : State} (h : EngineActs s t) : t.events = s.events := by
  cases h with
  | idle => rfl
  | illegal => rfl
  | command _ _ _ _ done =>
    obtain ⟨-, -, -, -, -, -, events, -⟩ := done.keeps_operands
    exact events

/-- The engine's turn never stops the model (R239). -/
theorem engineStep_next (s : State) : ∃ t, engineStep s = .next t := by
  by_cases busy : s.status.busy = true
  · cases pend : decode s.pend with
    | command i =>
      obtain ⟨t, ht, -⟩ := exec_completes i s
      exact ⟨t, (engineStep_command busy pend).trans ht⟩
    | illegal => exact ⟨_, engineStep_illegal busy pend⟩
  · exact ⟨s, engineStep_idle (Bool.eq_false_of_not_eq_true busy)⟩

/-- A state with other turns to come and other replies: what the host has done and will do. -/
def State.withHost (events : List Event) (replies : List Reply) (s : State) : State :=
  { s with events := events, replies := replies }

section
variable (events : List Event) (replies : List Reply)

theorem withHost_ite {c : Prop} [Decidable c] {a b a' b' : State} (ha : a = a'.withHost events replies)
    (hb : b = b'.withHost events replies) :
    (if c then a else b) = (if c then a' else b').withHost events replies := by
  split
  · exact ha
  · exact hb

theorem mapNext_withHost_of_eq {a b : State} (h : a = b.withHost events replies) :
    Host.Outcome.next a = mapNext (State.withHost events replies) (.next b) :=
  congrArg _ h

/-- No command reads or writes what the host has done or will do (R61). -/
theorem exec_withHost (i : Instr) (s : State) :
    exec i (s.withHost events replies) = mapNext (State.withHost events replies) (exec i s) := by
  cases i with
  | cfgKey => exact mapNext_withHost_of_eq _ _ (withHost_ite _ _ rfl (withHost_ite _ _ rfl rfl))
  | cfgIv => exact mapNext_withHost_of_eq _ _ (withHost_ite _ _ rfl (withHost_ite _ _ rfl rfl))
  | cfgDefault => rfl
  | encrypt => exact mapNext_withHost_of_eq _ _ (withHost_ite _ _ rfl rfl)
  | decrypt =>
    refine mapNext_withHost_of_eq _ _ (withHost_ite _ _ rfl (withHost_ite _ _ rfl ?_))
    have bytes : (s.withHost events replies).bytesIn (inputRange .decrypt (s.withHost events replies)) =
        s.bytesIn (inputRange .decrypt s) := rfl
    rw [bytes]
    dsimp only [State.withHost]
    cases decryptStream s.params.delta (s.bytesIn (inputRange .decrypt s)) s.key s.iv with
    | ok => rfl
    | error => rfl
  | checksum => exact mapNext_withHost_of_eq _ _ (withHost_ite _ _ rfl (withHost_ite _ _ rfl rfl))
  | encblk => rfl
  | decblk => rfl

/-- The engine's turn does the same whatever the host has done and will do (R61, R239). -/
theorem engineStep_withHost (s : State) :
    engineStep (s.withHost events replies) = mapNext (State.withHost events replies) (engineStep s) := by
  by_cases busy : s.status.busy = true
  · cases pend : decode s.pend with
    | command i =>
      rw [engineStep_command busy pend, engineStep_command (s := s.withHost events replies) busy pend]
      exact exec_withHost events replies i s
    | illegal =>
      rw [engineStep_illegal busy pend, engineStep_illegal (s := s.withHost events replies) busy pend]
      rfl
  · have idle := Bool.eq_false_of_not_eq_true busy
    rw [engineStep_idle idle, engineStep_idle (s := s.withHost events replies) idle]
    rfl

end

/-! ## Polling STATUS -/

/-- A read of STATUS gives its word, whatever the core is doing (R23, R238). -/
theorem step_reads_status {s : State} {rest : List Event} (unfaulted : s.hfault = false)
    (first : s.events = .host (.regRead 32 Reg.status.offset) :: rest) :
    step s = .next (s.withHost rest (.word s.status.word :: s.replies)) :=
  step_reads unfaulted first (r := .status) rfl (.inr rfl)

/-- Any number of polls of a started command read the busy word 1 and change nothing else (R77, R238). -/
theorem run_polls (polls n : Nat) {s : State} {rest : List Event} (unfaulted : s.hfault = false)
    (started : s.status = Status.started)
    (first : s.events = List.replicate polls (.host (.regRead 32 Reg.status.offset)) ++ rest) :
    core.run (polls + n) s = core.run n (s.withHost rest (List.replicate polls (.word 1) ++ s.replies)) := by
  induction polls generalizing s with
  | zero =>
    rw [Nat.zero_add]
    exact congrArg _ (congrArg (fun es => s.withHost es s.replies) first)
  | succ polls ih =>
    have word : s.status.word = 1 := by rw [started]; decide
    have polled := step_reads_status unfaulted first
    rw [word] at polled
    calc
      core.run (polls + 1 + n) s
      _ = core.run (polls + n + 1) s := by rw [Nat.add_right_comm]
      _ = core.run (polls + n) (s.withHost (List.replicate polls _ ++ rest) (.word 1 :: s.replies)) :=
        run_next polled _
      _ = core.run n (s.withHost rest (List.replicate polls (.word 1) ++ .word 1 :: s.replies)) :=
        ih (s := s.withHost (List.replicate polls _ ++ rest) (.word 1 :: s.replies)) unfaulted started rfl
      _ = _ := by rw [List.append_cons, ← List.replicate_succ']

/-- The engine's turn and a read of STATUS after it (R239). -/
theorem run_engine_rd_status (replies : List Reply) {s u : State} (unfaulted : s.hfault = false)
    (done : engineStep s = .next u) :
    core.run 2 (s.withHost (.engine :: HostProgram.rd .status) replies) =
      .next (u.withHost [] (.word u.status.word :: replies)) := by
  have turn : step (s.withHost (.engine :: HostProgram.rd .status) replies) =
      .next (u.withHost (HostProgram.rd .status) replies) := by
    calc
      _ = engineStep (s.withHost (HostProgram.rd .status) replies) :=
        step_engine (s := s.withHost (.engine :: HostProgram.rd .status) replies) unfaulted (.inr ⟨_, rfl⟩)
      _ = _ := by rw [engineStep_withHost, done, mapNext_next]
  have unfaulted' : u.hfault = false := (acts_of_engineStep done).hfault_eq.trans unfaulted
  have last : step (u.withHost (HostProgram.rd .status) replies) =
      .next (u.withHost [] (.word u.status.word :: replies)) :=
    step_reads_status (s := u.withHost (HostProgram.rd .status) replies) unfaulted' rfl
  exact (run_next turn 1).trans (run_next last 0)

/-- `wait` on a started command ends as the engine's turn alone would end it, with the replies of its reads in addition
(R77). -/
theorem run_wait (polls : Nat) {s u : State} (unfaulted : s.hfault = false) (started : s.status = Status.started)
    (waits : s.events = HostProgram.wait polls) (done : engineStep { s with events := [] } = .next u) :
    core.run (polls + 2) s =
      .next (u.withHost [] (.word u.status.word :: (List.replicate polls (.word 1) ++ s.replies))) :=
  (run_polls polls 2 unfaulted started waits).trans
    (run_engine_rd_status _ (s := { s with events := [] }) unfaulted done)

/-! ## The obligations -/

/-- Settles O59: the polls change nothing, the engine's turn does the same as without them, and the last read finds the
command completed. -/
theorem waitEndsHoweverLongTheEngineTakes : Obligations.WaitEndsHoweverLongTheEngineTakes := by
  intro s polls unfaulted started waits
  obtain ⟨u, done⟩ := engineStep_next { s with events := [] }
  have acts := acts_of_engineStep done
  obtain ⟨idle, finished⟩ := acts.busy_done (congrArg Status.busy started)
  refine ⟨_, u, run_wait polls unfaulted started waits done, ?_, idle, finished, ?_⟩
  · exact (step_engine (s := { s with events := [] }) unfaulted (.inl rfl)).trans done
  · have none : u.events = [] := acts.events_eq
    rw [State.withHost, ← none]

/-- Settles O2: by the fields of the word, which put it together again. -/
theorem decodeNamesExactlyTheEncodedCommand : Obligations.DecodeNamesExactlyTheEncodedCommand := by
  intro w
  have command := decode_eq_command_iff w
  exact ⟨command, command .cfgKey, command .cfgIv, command .cfgDefault, command .encrypt, command .decrypt,
    command .checksum, command .encblk, command .decblk, decode_illegal_iff w⟩

/-- Settles O8: at either of its turns the engine reports the word and raises nothing but IllegalCommand. -/
theorem illegalWordsOnlyReport : Obligations.IllegalWordsOnlyReport := by
  intro s unfaulted busy value
  obtain ⟨why, illegal⟩ := (decode_illegal_iff s.pend).mpr value
  refine ⟨fun none => ?_, fun rest first => ?_⟩
  · rw [step_illegal unfaulted busy (.inl none) illegal, turnTaken_of_nil none]
    rfl
  · rw [step_illegal unfaulted busy (.inr ⟨rest, first⟩) illegal, turnTaken_of_cons first]
    rfl

/-- Settles O34: by the forms a completed command can leave. -/
theorem commandsWriteOnlyTheirResults : Obligations.CommandsWriteOnlyTheirResults := by
  intro i s t h
  have done := completes_of_exec h
  obtain ⟨srcAddr, srcLen, dstAddr, pend, params, hfault, events, replies⟩ := done.keeps_operands
  exact ⟨srcAddr, srcLen, dstAddr, pend, params, hfault, events, replies, done.key_eq, done.iv_eq,
    fun other => done.csum_eq (List.mem_singleton.not.mpr other), done.blk_eq, done.mem_eq⟩

/-- Settles O1: the eight words are those `encode` gives, and each of the twelve has reserved bits or a
reserved opcode. -/
theorem opcodeMapDecodes : Obligations.OpcodeMapDecodes := by
  refine ⟨decode_encode .cfgKey, decode_encode .cfgIv, decode_encode .cfgDefault, decode_encode .encrypt,
    decode_encode .decrypt, decode_encode .checksum, decode_encode .encblk, decode_encode .decblk, ?_⟩
  simp [decode_illegal_iff]

/-- Settles O3: `regAt` and `Reg.offset` undo each other, and `regAt` is defined exactly on the register space. -/
theorem registerOffsets : Obligations.RegisterOffsets := by
  refine ⟨rfl, rfl, rfl, rfl, rfl, rfl, rfl, rfl, rfl, fun offset r => ⟨offset_of_regAt, ?_⟩,
    regAt_eq_some_iff_aligned⟩
  rintro rfl
  exact regAt_offset r

end Sys2Proof.Machine
end

section
/-! PROOFS. The statements of `40_block_transform.md`: the rounds of the block transform (R100, R101), and ENCBLK (R104)
and DECBLK (R105). -/

namespace Sys2Proof.Machine

/-! ## The rounds on `SUM`, `LOW` and `HIGH` alone -/

/-- The part of the round state that R100 and R101 speak of, without the count `RND`. -/
def RoundState.triple (r : RoundState) : Word × Word × Word := (r.sum, r.low, r.high)

/-- The transforms read their block off the last triple (R100, R101). -/
theorem encryptBlock_eq_triple (delta low high : Word) (k : Key) :
    encryptBlock delta low high k = (encryptRounds delta low high k).triple.2 := encryptBlock_eq delta low high k

@[inherit_doc encryptBlock_eq_triple] theorem decryptBlock_eq_triple (delta low high : Word) (k : Key) :
    decryptBlock delta low high k = (decryptRounds delta low high k).triple.2 := decryptBlock_eq delta low high k

/-- A round that acts on the triple as `line` does, repeated, acts on it as `line` repeated. -/
theorem repeatRound_triple {round : RoundState → RoundState} {line : Word × Word × Word → Word × Word × Word}
    (simulates : Function.Semiconj RoundState.triple round line) (n : Nat) (r : RoundState) :
    (repeatRound round n r).triple = line^[n] r.triple := by
  rw [repeatRound_iterate]
  exact simulates.iterate_right n r

/-! ## What ENCBLK and DECBLK leave, apart from the hidden state -/

theorem blockEncrypted_withoutHidden (s : State) :
    (blockEncrypted s).withoutHidden =
      State.withoutHidden
        { s with
          blkLo := (encryptBlock s.params.delta s.blkLo s.blkHi s.key).1
          blkHi := (encryptBlock s.params.delta s.blkLo s.blkHi s.key).2
          status := Status.completed } := by
  simp only [State.withoutHidden, blockEncrypted, State.completeOk]

theorem blockDecrypted_withoutHidden (s : State) :
    (blockDecrypted s).withoutHidden =
      State.withoutHidden
        { s with
          blkLo := (decryptBlock s.params.delta s.blkLo s.blkHi s.key).1
          blkHi := (decryptBlock s.params.delta s.blkLo s.blkHi s.key).2
          status := Status.completed } := by
  simp only [State.withoutHidden, blockDecrypted, State.completeOk]

/-! ## The obligations -/

/-- Settles O9: one round of each kind acts on the triple as the written lines do, so 32 of them do. -/
theorem blockTransformsRunTheirWrittenRounds : Obligations.BlockTransformsRunTheirWrittenRounds := by
  intro delta low high k forward backward
  have forwards : Function.Semiconj RoundState.triple (encryptRound delta k) forward := fun _ => rfl
  have backwards : Function.Semiconj RoundState.triple (decryptRound delta k) backward := fun _ => rfl
  constructor
  · rw [encryptBlock_eq_triple, encryptRounds, repeatRound_triple forwards]
    rfl
  · rw [decryptBlock_eq_triple, decryptRounds, repeatRound_triple backwards]
    rfl

/-- Settles O12: ENCBLK always completes, and leaves the transformed block. -/
theorem encblkCommand : Obligations.EncblkCommand :=
  ⟨rfl, fun w => decode_eq_command_iff w .encblk,
    fun s => ⟨blockEncrypted s, execEncblk_next s, blockEncrypted_withoutHidden s⟩⟩

/-- Settles O13: DECBLK always completes, and leaves the inversely transformed block. -/
theorem decblkCommand : Obligations.DecblkCommand :=
  ⟨rfl, fun s => ⟨blockDecrypted s, execDecblk_next s, blockDecrypted_withoutHidden s⟩⟩

end Sys2Proof.Machine
end

section
/-! PROOFS. The statements of `41_stream_engine.md`: checksum and framing (R120 to R123), the key ratchet (R124, R125),
the streams (R127, R128, R133), and CHECKSUM (R129), ENCRYPT (R130) and DECRYPT (R131). -/

namespace Sys2Proof.Machine

/-! ## Checksum and framing -/

/-- Four bytes further on, a word is that of the rest (R56). -/
theorem le32_four (b0 b1 b2 b3 : Byte) (rest : List Byte) (i : Nat) :
    le32 (b0 :: b1 :: b2 :: b3 :: rest) (4 * (i + 1)) = le32 rest (4 * i) := rfl

/-- Word `i` of a byte sequence is `le32(bs, 4*i)` (R56). -/
theorem wordsOf_eq_map (bs : List Byte) : wordsOf bs = (List.range (bs.length / 4)).map fun i => le32 bs (4 * i) := by
  induction bs using wordsOf.induct with
  | case1 b0 b1 b2 b3 rest ih =>
    have words : (b0 :: b1 :: b2 :: b3 :: rest).length / 4 = rest.length / 4 + 1 := by
      simp only [List.length_cons]
      omega
    rw [wordsOf, ih, words, List.range_succ_eq_map, List.map_cons, List.map_map]
    refine congrArg _ (List.map_congr_left fun i _ => ?_)
    exact (le32_four b0 b1 b2 b3 rest i).symm
  | case2 bs short =>
    have none : bs.length / 4 = 0 := by
      by_contra nonempty
      obtain ⟨b0, b1, b2, b3, rest, rfl⟩ := four_of_length (bs := bs) (by omega)
      exact short b0 b1 b2 b3 rest rfl
    rw [none, wordsOf]
    · rfl
    · exact short

/-- `UnframeVerify` of a body and its 4 last bytes compares them with the body's checksum (R123). -/
theorem unframeVerify_append (body : List Byte) {tail : List Byte} (h : tail.length = 4) :
    unframeVerify (body ++ tail) =
      if checksum body ≠ le32 tail 0 then .error .integrityError else .ok body := by
  have start : (body ++ tail).length - 4 = body.length := by rw [List.length_append, h, Nat.add_sub_cancel]
  have long : ¬ (body ++ tail).length < 4 := by rw [List.length_append, h]; omega
  rw [unframeVerify, if_neg long, framedBody_append _ _ h, start, le32_append_right]

/-- `PadFrame` is the padded input and its checksum (R121). -/
theorem padFrame_eq (p : List Byte) :
    padFrame p = p ++ zeros (padLen p.length) ++ bytes32 (checksum (p ++ zeros (padLen p.length))) := by
  rw [padFrame, padBody_eq]

/-- A framed payload verifies, and gives back the padded input (R121, R123, R134). -/
theorem unframeVerify_padFrame (p : List Byte) : unframeVerify (padFrame p) = .ok (p ++ zeros (padLen p.length)) := by
  rw [padFrame_eq, unframeVerify_append _ (bytes32_length _), le32_bytes32, if_neg (not_not.mpr rfl)]

/-! ## The key ratchet -/

/-- The bytes of the mutated key (R124). -/
theorem mutateKey_bytes (k : Key) :
    (mutateKey k).bytes = List.zipWith (· + ·) k.bytes ((List.range 16).map (BitVec.ofNat 8)) :=
  keyOfBytes_bytes_of_length (by simp)

/-- The cursor `c` is ready for block `n` (counted from 0): the key has been mutated once for each 128 blocks, and the
counter counts the blocks since (R125). -/
def Cursor.ReadyFor (key : Key) (n : Nat) (c : Cursor) : Prop :=
  c.wk = mutateKey^[n / 128] key ∧ c.bcnt.toNat = 8 * (n % 128)

/-- One block in either direction: the check of R125, then the chaining value and 8 bytes counted. -/
def AdvancesCursor (next : Hidden → Block → Hidden × Block) : Prop :=
  ∀ h b, ∃ v, (next h b).1.cursor = (ratchet h.cursor).advance v

theorem encryptNext_advances (delta : Word) : AdvancesCursor (encryptNext delta) := fun _ _ => ⟨_, rfl⟩

theorem decryptNext_advances (delta : Word) : AdvancesCursor (decryptNext delta) := fun _ _ => ⟨_, rfl⟩

theorem Cursor.readyFor_start (key : Key) (iv : Block) : (ratchet (Cursor.start key iv)).ReadyFor key 0 := ⟨rfl, rfl⟩

theorem Cursor.ReadyFor.advance_bcnt {key : Key} {n : Nat} {c : Cursor} (ready : c.ReadyFor key n) (v : Block) :
    (c.advance v).bcnt.toNat = 8 * (n % 128 + 1) := by
  obtain ⟨-, bcnt⟩ := ready
  rw [Machine.advance_bcnt (by omega), bcnt]
  omega

/-- After its block, the check makes the cursor ready for the next one: it mutates the key after each 128th (R125). -/
theorem Cursor.ReadyFor.next {key : Key} {n : Nat} {c : Cursor} (ready : c.ReadyFor key n) (v : Block) :
    (ratchet (c.advance v)).ReadyFor key (n + 1) := by
  have bcnt := ready.advance_bcnt v
  have wk : (c.advance v).wk = mutateKey^[n / 128] key := ready.1
  unfold ratchet
  by_cases full : (c.advance v).bcnt.toNat = mutationPeriod
  · rw [if_pos full]
    have last : n % 128 = 127 := by rw [mutationPeriod] at full; omega
    have quotient : (n + 1) / 128 = n / 128 + 1 := by omega
    refine ⟨?_, ?_⟩
    · rw [quotient, Function.iterate_succ_apply', ← wk]
    · rw [show (n + 1) % 128 = 0 by omega]; rfl
  · rw [if_neg full]
    have more : n % 128 ≠ 127 := by rw [mutationPeriod] at full; omega
    refine ⟨?_, ?_⟩
    · rw [wk, show (n + 1) / 128 = n / 128 by omega]
    · rw [bcnt]; omega

section
variable {next : Hidden → Block → Hidden × Block} (advances : AdvancesCursor next)
include advances

/-- The cursor after one block more. -/
theorem runBlocks_snoc_cursor (h : Hidden) (bs : List Block) (b : Block) :
    ∃ v, (runBlocks next h (bs ++ [b])).1.cursor = (ratchet (runBlocks next h bs).1.cursor).advance v := by
  rw [runBlocks_append]
  exact advances _ b

/-- After any blocks, the check makes the cursor ready for the next one (R125). -/
theorem runBlocks_readyFor (key : Key) (iv : Block) (bs : List Block) :
    (ratchet (runBlocks next (Hidden.start key iv) bs).1.cursor).ReadyFor key bs.length := by
  induction bs using List.reverseRecOn with
  | nil => exact Cursor.readyFor_start key iv
  | append_singleton bs b ih =>
    obtain ⟨v, cursor⟩ := runBlocks_snoc_cursor advances (Hidden.start key iv) bs b
    rw [cursor, List.length_append]
    exact ih.next v

/-- The key block `n` is transformed under (R125). -/
theorem runBlocks_take_wk (key : Key) (iv : Block) {bs : List Block} {n : Nat} (h : n < bs.length) :
    (ratchet (runBlocks next (Hidden.start key iv) (bs.take n)).1.cursor).wk = mutateKey^[n / 128] key := by
  obtain ⟨wk, -⟩ := runBlocks_readyFor advances key iv (bs.take n)
  rw [wk, List.length_take_of_le h.le]

end

/-! ## One block -/

/-- `EncryptBlock` on a block as the streams apply it, its low word first (R100, R127). -/
def encipher (delta : Word) (k : Key) (x : Block) : Block :=
  let c := encryptBlock delta (lowOf x) (highOf x) k
  c.2 ++ c.1

/-- `DecryptBlock` on a block as the streams apply it (R101, R128). -/
def decipher (delta : Word) (k : Key) (y : Block) : Block :=
  let b := decryptBlock delta (lowOf y) (highOf y) k
  b.2 ++ b.1

section
variable (delta : Word) (h : Hidden) (b y : Block)

theorem encryptNext_block :
    (encryptNext delta h b).2 = encipher delta (ratchet h.cursor).wk (b ^^^ (ratchet h.cursor).cv) := rfl

theorem encryptNext_cursor :
    (encryptNext delta h b).1.cursor = (ratchet h.cursor).advance (encryptNext delta h b).2 := rfl

theorem decryptNext_block :
    (decryptNext delta h y).2 = decipher delta (ratchet h.cursor).wk y ^^^ (ratchet h.cursor).cv := rfl

theorem decryptNext_cursor : (decryptNext delta h y).1.cursor = (ratchet h.cursor).advance y := rfl

end

/-! ## The inverse of a block -/

/-- An encryption round on the triple of R100. -/
def encryptLine (delta : Word) (k : Key) (t : Word × Word × Word) : Word × Word × Word :=
  (encryptRound delta k { sum := t.1, rnd := 0, low := t.2.1, high := t.2.2 }).triple

/-- A decryption round on the triple of R101. -/
def decryptLine (delta : Word) (k : Key) (t : Word × Word × Word) : Word × Word × Word :=
  (decryptRound delta k { sum := t.1, rnd := 0, low := t.2.1, high := t.2.2 }).triple

theorem encryptRound_semiconj (delta : Word) (k : Key) :
    Function.Semiconj RoundState.triple (encryptRound delta k) (encryptLine delta k) := fun _ => rfl

theorem decryptRound_semiconj (delta : Word) (k : Key) :
    Function.Semiconj RoundState.triple (decryptRound delta k) (decryptLine delta k) := fun _ => rfl

theorem encryptRounds_triple (delta low high : Word) (k : Key) :
    (encryptRounds delta low high k).triple = (encryptLine delta k)^[rounds] (0, low, high) := by
  rw [encryptRounds, repeatRound_triple (encryptRound_semiconj delta k)]
  rfl

theorem decryptRounds_triple (delta low high : Word) (k : Key) :
    (decryptRounds delta low high k).triple = (decryptLine delta k)^[rounds] (delta * 32, low, high) := by
  rw [decryptRounds, repeatRound_triple (decryptRound_semiconj delta k)]
  rfl

/-- A decryption round undoes an encryption round on the triple (R100, R101). -/
theorem decryptLine_encryptLine (delta : Word) (k : Key) :
    Function.LeftInverse (decryptLine delta k) (encryptLine delta k) :=
  fun _ => congrArg RoundState.triple (decryptRound_encryptRound delta k _)

/-- Each encryption round adds `DELTA` to the sum (R100). -/
theorem repeatRound_encryptRound_sum (delta : Word) (k : Key) (n : Nat) (r : RoundState) :
    (repeatRound (encryptRound delta k) n r).sum = r.sum + delta * BitVec.ofNat 32 n := by
  induction n with
  | zero => simp
  | succ n ih =>
    have added : (repeatRound (encryptRound delta k) (n + 1) r).sum =
        (repeatRound (encryptRound delta k) n r).sum + delta := by rw [repeatRound_succ]; rfl
    rw [added, ih, BitVec.ofNat_add, BitVec.mul_add, BitVec.add_assoc]
    simp

/-- Encryption ends with the sum decryption starts from (R100, R101). -/
theorem encryptRounds_sum (delta low high : Word) (k : Key) : (encryptRounds delta low high k).sum = delta * 32 := by
  rw [encryptRounds, repeatRound_encryptRound_sum]
  exact BitVec.zero_add _

/-- `DecryptBlock` undoes `EncryptBlock` (R100, R101). -/
theorem decryptBlock_encryptBlock (delta low high : Word) (k : Key) :
    decryptBlock delta (encryptBlock delta low high k).1 (encryptBlock delta low high k).2 k = (low, high) := by
  have after : (delta * 32, encryptBlock delta low high k) = (encryptLine delta k)^[rounds] (0, low, high) := by
    rw [← encryptRounds_triple, ← encryptRounds_sum delta low high k]
    rfl
  rw [decryptBlock_eq_triple, decryptRounds_triple, Prod.mk.eta, after,
    (decryptLine_encryptLine delta k).iterate rounds]

theorem decipher_encipher (delta : Word) (k : Key) (x : Block) : decipher delta k (encipher delta k x) = x := by
  rw [encipher, decipher, lowOf_append, highOf_append, decryptBlock_encryptBlock, high_append_low]

/-- From the same cursor, `DecryptStream` takes back the block `EncryptStream` produced, and the cursors stay the same
(R127, R128, R133). -/
theorem decryptNext_encryptNext {delta : Word} {h g : Hidden} (same : g.cursor = h.cursor) (b : Block) :
    (decryptNext delta g (encryptNext delta h b).2).2 = b ∧
      (decryptNext delta g (encryptNext delta h b).2).1.cursor = (encryptNext delta h b).1.cursor := by
  constructor
  · rw [decryptNext_block, same, encryptNext_block, decipher_encipher, BitVec.xor_assoc, BitVec.xor_self,
      BitVec.xor_zero]
  · rw [decryptNext_cursor, encryptNext_cursor, same]

/-- The block loops in lockstep: decrypting what was encrypted gives the blocks back (R133). -/
theorem runBlocks_decrypt_encrypt {delta : Word} {h g : Hidden} (same : g.cursor = h.cursor) (bs : List Block) :
    (runBlocks (decryptNext delta) g (runBlocks (encryptNext delta) h bs).2).2 = bs := by
  induction bs generalizing h g with
  | nil => rfl
  | cons b bs ih =>
    obtain ⟨block, cursors⟩ := decryptNext_encryptNext (delta := delta) same b
    simp only [runBlocks_cons]
    rw [block, ih cursors]

/-! ## The blocks of the streams -/

/-- The chaining value of block `n`: what the block before it fed back, the initial one for the first (R127, R128). -/
def chained (iv : Block) (fed : List Block) (n : Nat) : Block := (iv :: fed).getD n 0

/-- Encryption feeds back the blocks it produced (R127). -/
theorem encryptRun_cv (delta : Word) (h : Hidden) {bs : List Block} {n : Nat} (hn : n ≤ bs.length) :
    (runBlocks (encryptNext delta) h (bs.take n)).1.cursor.cv =
      chained h.cursor.cv (runBlocks (encryptNext delta) h bs).2 n := by
  cases n with
  | zero => rfl
  | succ n =>
    rw [runBlocks_take_succ _ _ _ _ hn, encryptNext_cursor, chained, List.getD_cons_succ, runBlocks_get _ _ _ _ hn]
    rfl

/-- Decryption feeds back the blocks it consumed (R128). -/
theorem decryptRun_cv (delta : Word) (h : Hidden) {bs : List Block} {n : Nat} (hn : n ≤ bs.length) :
    (runBlocks (decryptNext delta) h (bs.take n)).1.cursor.cv = chained h.cursor.cv bs n := by
  cases n with
  | zero => rfl
  | succ n => rw [runBlocks_take_succ _ _ _ _ hn, decryptNext_cursor]; rfl

section
variable (delta : Word) (key : Key) (iv : Block) {bs : List Block} {n : Nat} (hn : n < bs.length)
include hn

/-- Output block `n` of encryption (R127). -/
theorem runBlocks_encrypt_get :
    (runBlocks (encryptNext delta) (Hidden.start key iv) bs).2.getD n 0 =
      encipher delta (mutateKey^[n / 128] key)
        (bs.getD n 0 ^^^ chained iv (runBlocks (encryptNext delta) (Hidden.start key iv) bs).2 n) := by
  rw [runBlocks_get _ _ _ _ hn, encryptNext_block, runBlocks_take_wk (encryptNext_advances delta) key iv hn, ratchet_cv,
    encryptRun_cv _ _ hn.le]
  rfl

/-- Output block `n` of decryption (R128). -/
theorem runBlocks_decrypt_get :
    (runBlocks (decryptNext delta) (Hidden.start key iv) bs).2.getD n 0 =
      decipher delta (mutateKey^[n / 128] key) (bs.getD n 0) ^^^ chained iv bs n := by
  rw [runBlocks_get _ _ _ _ hn, decryptNext_block, runBlocks_take_wk (decryptNext_advances delta) key iv hn, ratchet_cv,
    decryptRun_cv _ _ hn.le]
  rfl

end

/-- The chaining value by the bytes of what was fed back (R53). -/
theorem chained_blocksOf (iv : Block) {bs : List Byte} {n : Nat} (hn : n ≤ bs.length / 8) :
    chained iv (blocksOf bs) n = if n = 0 then iv else le64 bs (8 * (n - 1)) := by
  cases n with
  | zero => rfl
  | succ n => exact blocksOf_get bs n hn

theorem blocksOf_encryptStream (delta : Word) (p : List Byte) (key : Key) (iv : Block) :
    blocksOf (encryptStream delta p key iv) =
      (runBlocks (encryptNext delta) (Hidden.start key iv) (blocksOf (padFrame p))).2 :=
  blocksOf_bytesOfBlocks _

theorem blocksOf_decryptFramed (delta : Word) (c : List Byte) (key : Key) (iv : Block) :
    blocksOf (decryptFramed delta c key iv) =
      (runBlocks (decryptNext delta) (Hidden.start key iv) (blocksOf c)).2 :=
  blocksOf_bytesOfBlocks _

/-- Decrypting what was encrypted gives back the framed payload (R133). -/
theorem decryptFramed_encryptStream (delta : Word) (p : List Byte) (key : Key) (iv : Block) :
    decryptFramed delta (encryptStream delta p key iv) key iv = padFrame p := by
  have whole : (padFrame p).length % 8 = 0 := by rw [padFrame_length, framedLen_mod]
  rw [decryptFramed, decryptRun, blocksOf_encryptStream, runBlocks_decrypt_encrypt rfl, bytesOfBlocks_blocksOf whole]

/-- A ciphertext of whole blocks, at least one, is unframed (R128). -/
theorem decryptStream_blocks (delta : Word) {c : List Byte} (key : Key) (iv : Block) (nonempty : c.length ≠ 0)
    (whole : c.length % 8 = 0) : decryptStream delta c key iv = unframeVerify (decryptFramed delta c key iv) :=
  if_neg (by omega)

/-- The round trip of the streams. -/
theorem decryptStream_encryptStream (delta : Word) (p : List Byte) (key : Key) (iv : Block) :
    decryptStream delta (encryptStream delta p key iv) key iv = .ok (p ++ zeros (padLen p.length)) := by
  have length := encryptStream_length delta p key iv
  have nonempty := framedLen_ge p.length
  have whole := framedLen_mod p.length
  rw [decryptStream_blocks delta key iv (by omega) (by omega), decryptFramed_encryptStream, unframeVerify_padFrame]

/-! ## What the buffer commands leave, by the registers -/

/-- The ranges of ENCRYPT by its registers (R58, R59); its output is never empty. -/
theorem encrypt_usable_iff (s : State) :
    rangesUsable s.params.memBytes (inputRange .encrypt s) (outputRange .encrypt s) ↔
      (s.srcLen.toNat = 0 ∨ s.srcAddr.toNat + s.srcLen.toNat ≤ s.params.memBytes) ∧
      s.dstAddr.toNat + framedLen s.srcLen.toNat ≤ s.params.memBytes ∧
      ¬ (s.srcLen.toNat ≠ 0 ∧ s.srcAddr.toNat < s.dstAddr.toNat + framedLen s.srcLen.toNat ∧
        s.dstAddr.toNat < s.srcAddr.toNat + s.srcLen.toNat) := by
  have := framedLen_ge s.srcLen.toNat
  simp only [rangesUsable, Range.Valid, Range.Overlaps, inputRange, outputRange]
  omega

/-- The ranges of DECRYPT by its registers, once the length is checked (R58, R59): neither is empty then. -/
theorem decrypt_usable_iff {s : State} (nonempty : s.srcLen.toNat ≠ 0) (whole : s.srcLen.toNat % 8 = 0) :
    rangesUsable s.params.memBytes (inputRange .decrypt s) (outputRange .decrypt s) ↔
      s.srcAddr.toNat + s.srcLen.toNat ≤ s.params.memBytes ∧
      s.dstAddr.toNat + (s.srcLen.toNat - 4) ≤ s.params.memBytes ∧
      ¬ (s.srcAddr.toNat < s.dstAddr.toNat + (s.srcLen.toNat - 4) ∧
        s.dstAddr.toNat < s.srcAddr.toNat + s.srcLen.toNat) := by
  simp only [rangesUsable, Range.Valid, Range.Overlaps, inputRange, outputRange]
  omega

/-- On a memory of a legal size the whole length of ENCRYPT's output fits `DST_LEN` (R14, R27): with the output range at
0 the input, if any, lies above it. -/
theorem framedLen_fits {s : State} (legal : s.params.WellFormed)
    (usable : rangesUsable s.params.memBytes (inputRange .encrypt s) (outputRange .encrypt s)) :
    (BitVec.ofNat 32 (framedLen s.srcLen.toNat)).toNat = framedLen s.srcLen.toNat := by
  obtain ⟨-, dst, apart⟩ := (encrypt_usable_iff s).mp usable
  obtain ⟨-, size⟩ := legal
  have srcAddr := s.srcAddr.isLt
  have empty : framedLen 0 = 8 := rfl
  rw [maxMemBytes] at size
  refine (BitVec.toNat_ofNat _ _).trans (Nat.mod_eq_of_lt ?_)
  by_cases none : s.srcLen.toNat = 0
  · rw [none, empty]
    decide
  · omega

/-- Where its ranges are usable, ENCRYPT completes (R130). -/
theorem execEncrypt_usable {s : State}
    (usable : rangesUsable s.params.memBytes (inputRange .encrypt s) (outputRange .encrypt s)) :
    execEncrypt s = .next (encrypted s) := by
  rcases execEncrypt_cases s with ⟨unusable, -⟩ | ⟨-, done⟩
  · exact absurd usable unusable
  · exact done

theorem encrypted_withoutHidden (s : State) :
    (encrypted s).withoutHidden =
      State.withoutHidden
        { s with
          mem := (encrypted s).mem
          dstLen := BitVec.ofNat 32 (framedLen s.srcLen.toNat)
          status := Status.completed } := by
  simp only [State.withoutHidden, encrypted, State.completeOk]

/-- Memory after ENCRYPT (R130). -/
theorem encrypted_read (s : State) (x : Nat) :
    (encrypted s).mem.read x =
      if s.dstAddr.toNat ≤ x ∧ x < s.dstAddr.toNat + framedLen s.srcLen.toNat then
        (encryptStream s.params.delta (s.bytesIn (inputRange .encrypt s)) s.key s.iv).getD (x - s.dstAddr.toNat) 0
      else s.mem.read x := by
  have fills : _ = framedLen s.srcLen.toNat := encryptStream_fills s
  rw [← fills]
  exact read_writeBytes ..

theorem decrypted_withoutHidden (s : State) (p : List Byte) :
    (decrypted s p).withoutHidden =
      State.withoutHidden
        { s with
          mem := (decrypted s p).mem
          dstLen := BitVec.ofNat 32 (s.srcLen.toNat - 4)
          status := Status.completed } := by
  simp only [State.withoutHidden, decrypted, State.completeOk]

/-- Memory after DECRYPT of a body that fills its output range (R131). -/
theorem decrypted_read (s : State) {p : List Byte} (fills : p.length = s.srcLen.toNat - 4) (x : Nat) :
    (decrypted s p).mem.read x =
      if s.dstAddr.toNat ≤ x ∧ x < s.dstAddr.toNat + (s.srcLen.toNat - 4) then p.getD (x - s.dstAddr.toNat) 0
      else s.mem.read x := by
  rw [← fills]
  exact read_writeBytes ..

theorem unverified_withoutHidden (s : State) :
    (unverified s).withoutHidden =
      State.withoutHidden
        { s with
          mem := (unverified s).mem
          draws := (unverified s).draws
          status := Status.failed .integrityError
          dstLen := 0 } := by
  simp only [State.withoutHidden, unverified, State.raise, State.scramble]

/-- IntegrityError leaves every byte outside the output range (R208). -/
theorem unverified_read (s : State) {x : Nat} (outside : ¬ (outputRange .decrypt s).Holds x) :
    (unverified s).mem.read x = s.mem.read x :=
  read_writeBytes_of_not_holds (freeBytes_length _ _) outside

/-- Where DECRYPT passes its checks and the body verifies, it completes with that body (R131). -/
theorem execDecrypt_verified {s : State} {p : List Byte} (nonempty : s.srcLen.toNat ≠ 0)
    (whole : s.srcLen.toNat % 8 = 0)
    (usable : rangesUsable s.params.memBytes (inputRange .decrypt s) (outputRange .decrypt s))
    (ok : decryptStream s.params.delta (s.bytesIn (inputRange .decrypt s)) s.key s.iv = .ok p) :
    execDecrypt s = .next (decrypted s p) := by
  rcases execDecrypt_cases s with ⟨bad, -⟩ | ⟨-, ⟨unusable, -⟩ | ⟨-, ⟨q, -, good, done⟩ | ⟨bad, -⟩⟩⟩
  · omega
  · exact absurd usable unusable
  · cases ok.symm.trans good
    exact done
  · cases ok.symm.trans bad

/-- The body DECRYPT has verified stands at `DST_ADDR` (R131). -/
theorem decrypted_readBytes (s : State) (p : List Byte) :
    (decrypted s p).mem.readBytes s.dstAddr.toNat p.length = p := readBytes_writeBytes ..

/-- `DST_LEN` after DECRYPT holds the whole length, as `SRC_LEN` did (R27). -/
theorem decrypted_dstLen (s : State) (p : List Byte) : (decrypted s p).dstLen.toNat = s.srcLen.toNat - 4 :=
  (BitVec.toNat_ofNat _ _).trans (Nat.mod_eq_of_lt ((Nat.sub_le _ _).trans_lt s.srcLen.isLt))

/-! ## DECRYPT of what ENCRYPT wrote -/

/-- The padded input is as long as the output range of a DECRYPT of what ENCRYPT wrote (R58, R121). -/
theorem padded_length (s : State) :
    (s.bytesIn (inputRange .encrypt s) ++ zeros (padLen s.srcLen.toNat)).length = framedLen s.srcLen.toNat - 4 := by
  have length : (s.bytesIn (inputRange .encrypt s)).length = s.srcLen.toNat := readBytes_length ..
  have total := padLen_add s.srcLen.toNat
  rw [List.length_append, zeros_length, length]
  omega

/-- The registers set for a DECRYPT of the bytes the last command wrote, to the address `back`. -/
def State.readBack (back : Word) (t : State) : State :=
  { t with srcAddr := t.dstAddr, srcLen := t.dstLen, dstAddr := back }

section
variable {s : State} (back : Word)
  (fits : (BitVec.ofNat 32 (framedLen s.srcLen.toNat)).toNat = framedLen s.srcLen.toNat)
include fits

theorem readBack_srcLen : ((encrypted s).readBack back).srcLen.toNat = framedLen s.srcLen.toNat := fits

theorem readBack_inputRange :
    inputRange .decrypt ((encrypted s).readBack back) = ⟨s.dstAddr.toNat, framedLen s.srcLen.toNat⟩ :=
  congrArg (Range.mk _) fits

theorem readBack_outputRange :
    outputRange .decrypt ((encrypted s).readBack back) = ⟨back.toNat, framedLen s.srcLen.toNat - 4⟩ :=
  congrArg (fun l => Range.mk _ (l - 4)) fits

/-- DECRYPT reads the bytes ENCRYPT wrote (R51). -/
theorem readBack_bytes :
    ((encrypted s).readBack back).bytesIn (inputRange .decrypt ((encrypted s).readBack back)) =
      encryptStream s.params.delta (s.bytesIn (inputRange .encrypt s)) s.key s.iv := by
  have fills : _ = framedLen s.srcLen.toNat := encryptStream_fills s
  rw [readBack_inputRange back fits, ← fills]
  exact readBytes_writeBytes ..

/-- What ENCRYPT wrote verifies, and its body is the padded input (the round trip of the streams). -/
theorem readBack_verified :
    decryptStream ((encrypted s).readBack back).params.delta
        (((encrypted s).readBack back).bytesIn (inputRange .decrypt ((encrypted s).readBack back)))
        ((encrypted s).readBack back).key ((encrypted s).readBack back).iv =
      .ok (s.bytesIn (inputRange .encrypt s) ++ zeros (padLen s.srcLen.toNat)) := by
  have length : (s.bytesIn (inputRange .encrypt s)).length = s.srcLen.toNat := readBytes_length ..
  rw [readBack_bytes back fits, ← length]
  exact decryptStream_encryptStream ..

/-- Where its ranges are usable, DECRYPT of what ENCRYPT wrote completes with the padded input. -/
theorem execDecrypt_readBack
    (usable : rangesUsable s.params.memBytes ⟨s.dstAddr.toNat, framedLen s.srcLen.toNat⟩
      ⟨back.toNat, framedLen s.srcLen.toNat - 4⟩) :
    execDecrypt ((encrypted s).readBack back) =
      .next (decrypted ((encrypted s).readBack back)
        (s.bytesIn (inputRange .encrypt s) ++ zeros (padLen s.srcLen.toNat))) := by
  have srcLen := readBack_srcLen back fits
  have nonempty := framedLen_ge s.srcLen.toNat
  have whole := framedLen_mod s.srcLen.toNat
  refine execDecrypt_verified (by omega) (by omega) ?_ (readBack_verified back fits)
  rw [readBack_inputRange back fits, readBack_outputRange back fits]
  exact usable

end

/-! ## The obligations -/

/-- Settles O16: the words of the buffer are those at the indices the loop runs over. -/
theorem checksumIsTheIndexedLoop : Obligations.ChecksumIsTheIndexedLoop := by
  refine ⟨rfl, fun buf _ => ?_⟩
  rw [checksum, checksumAcc, wordsOf_eq_map, List.foldl_map]

/-- Settles O18: by the length of the padded input. -/
theorem padFramePadsAndAppendsTheChecksum : Obligations.PadFramePadsAndAppendsTheChecksum := by
  intro p q
  have framed := framedLen_eq p.length
  have total := padLen_add p.length
  refine ⟨padFrame_eq p, by omega, ?_, padFrame_length p, by rw [padFrame_length, framedLen_mod]⟩
  rw [List.length_append, zeros_length]
  omega

/-- Settles O19: short inputs fail at once, and the claimed checksum of a longer one is its last 4 bytes. -/
theorem unframeVerifyComparesTheChecksum : Obligations.UnframeVerifyComparesTheChecksum :=
  ⟨fun _ short => if_pos short, fun body _ length => unframeVerify_append body length⟩

/-- Settles O20: the bytes of the mutated key are the key's and their positions, added byte by byte. -/
theorem mutateKeyAddsThePositionToEachByte : Obligations.MutateKeyAddsThePositionToEachByte := by
  intro k i hi
  have inside : i < k.bytes.length := hi
  rw [mutateKey_bytes]
  simp [List.getD, hi, List.getElem?_eq_getElem inside]

/-- Settles O21: the cursor after `n` blocks is the one made ready for block `n - 1`, with that block counted. -/
theorem ratchetSchedule : Obligations.RatchetSchedule := by
  intro delta key iv bs next either
  have advances : AdvancesCursor next := by
    rcases List.mem_pair.mp either with rfl | rfl
    · exact encryptNext_advances delta
    · exact decryptNext_advances delta
  obtain ⟨wk, -⟩ := runBlocks_readyFor advances key iv bs
  refine ⟨wk, fun none => ?_, fun nonempty => ?_⟩
  · rw [List.length_eq_zero_iff.mp none]
    exact ⟨rfl, rfl⟩
  · obtain ⟨front, b, rfl⟩ := List.eq_nil_or_concat' bs |>.resolve_left (by rintro rfl; exact nonempty rfl)
    obtain ⟨v, cursor⟩ := runBlocks_snoc_cursor advances (Hidden.start key iv) front b
    have ready := runBlocks_readyFor advances key iv front
    rw [cursor, List.length_append, List.length_singleton, Nat.add_sub_cancel]
    exact ⟨ready.1, ready.advance_bcnt v⟩

/-- Settles O22: block by block, each under the key the ratchet has reached and chained on the block before it. -/
theorem encryptStreamChainsBlocks : Obligations.EncryptStreamChainsBlocks := by
  intro delta p key iv f out
  have length : out.length = framedLen p.length := encryptStream_length delta p key iv
  refine ⟨length, fun n hn => ?_⟩
  have framed : n < f.length / 8 := by rwa [padFrame_length]
  have block := runBlocks_encrypt_get delta key iv (bs := blocksOf f) (n := n) (by rwa [blocksOf_length])
  rw [← blocksOf_encryptStream, blocksOf_get _ _ (by rwa [length]), blocksOf_get _ _ framed,
    chained_blocksOf iv (by rw [length]; exact hn.le)] at block
  exact block

/-- Settles O23: the checks in order, and the blocks of the framed payload one by one. -/
theorem decryptStreamChainsBlocks : Obligations.DecryptStreamChainsBlocks := by
  intro delta c key iv
  refine ⟨fun bad => if_pos bad, fun p ok => ?_, fun nonempty whole => ?_⟩
  · rcases decryptStream_cases delta c key iv with ⟨-, bad⟩ | ⟨-, -, bad | ⟨q, length, good⟩⟩
    · cases ok.symm.trans bad
    · cases ok.symm.trans bad
    · cases ok.symm.trans good
      exact length
  · have length : (decryptFramed delta c key iv).length = c.length := by rw [decryptFramed_length]; omega
    refine ⟨_, length, decryptStream_blocks delta key iv nonempty whole, fun n hn => ?_⟩
    have block := runBlocks_decrypt_get delta key iv (bs := blocksOf c) (n := n) (by rwa [blocksOf_length])
    rw [← blocksOf_decryptFramed, blocksOf_get _ _ (by rwa [length]), blocksOf_get _ _ hn,
      chained_blocksOf iv hn.le] at block
    exact block

/-- Settles O24: the round trip of the streams. -/
theorem streamRoundTrip : Obligations.StreamRoundTrip := decryptStream_encryptStream

/-- Settles O26: the two cases of ENCRYPT, and what it leaves in memory. -/
theorem encryptCommand : Obligations.EncryptCommand := by
  refine ⟨rfl, fun s => ?_⟩
  have byRegisters := encrypt_usable_iff s
  rcases execEncrypt_cases s with ⟨unusable, done⟩ | ⟨usable, done⟩
  · exact ⟨fun _ => done, fun usable => absurd (byRegisters.mpr usable) unusable⟩
  · exact ⟨fun unusable => absurd (byRegisters.mp usable) unusable, fun _ =>
      ⟨encrypted s, done, encrypted_withoutHidden s, encrypted_read s, fun legal => framedLen_fits legal usable⟩⟩

/-- Settles O27: the cases of DECRYPT in the order of its checks, and what it leaves in memory. -/
theorem decryptCommand : Obligations.DecryptCommand := by
  refine ⟨rfl, fun s => ?_⟩
  rcases execDecrypt_cases s with ⟨bad, done⟩ | ⟨⟨nonempty, whole⟩, later⟩
  · exact ⟨fun _ => done, fun nonempty whole => by omega, fun nonempty whole => by omega,
      fun nonempty whole => by omega⟩
  · have byRegisters := decrypt_usable_iff nonempty whole
    have checked : ¬ (s.srcLen.toNat = 0 ∨ s.srcLen.toNat % 8 ≠ 0) := by omega
    rcases later with ⟨unusable, done⟩ | ⟨usable, verdict⟩
    · have unusable := mt byRegisters.mpr unusable
      exact ⟨fun bad => absurd bad checked, fun _ _ _ => done, fun _ _ usable => absurd usable unusable,
        fun _ _ usable => absurd usable unusable⟩
    · refine ⟨fun bad => absurd bad checked, fun _ _ unusable => absurd (byRegisters.mp usable) unusable,
        fun _ _ _ p ok => ?_, fun _ _ _ e error => ?_⟩
      · rcases verdict with ⟨q, fills, good, done⟩ | ⟨bad, -⟩
        · cases ok.symm.trans good
          exact ⟨fills, decrypted s p, done, decrypted_withoutHidden s p, decrypted_read s fills⟩
        · cases ok.symm.trans bad
      · rcases verdict with ⟨q, -, good, -⟩ | ⟨bad, done⟩
        · cases error.symm.trans good
        · cases error.symm.trans bad
          exact ⟨rfl, unverified s, done, unverified_withoutHidden s, fun _ => unverified_read s⟩

/-- Settles O28: DECRYPT reads the bytes ENCRYPT wrote, and the streams' round trip gives the padded input back. -/
theorem encryptThenDecryptInMemory : Obligations.EncryptThenDecryptInMemory := by
  intro s back legal n m forth usable
  have fits := framedLen_fits (s := s) legal forth
  have body : _ = m - 4 := padded_length s
  refine ⟨encrypted s, _, execEncrypt_usable forth, execDecrypt_readBack back fits usable, rfl, ?_, ?_⟩
  · rw [decrypted_dstLen, readBack_srcLen back fits]
  · rw [← body]
    exact decrypted_readBytes ..

/-- Settles O25: the cases of CHECKSUM in the order of its checks. -/
theorem checksumCommand : Obligations.ChecksumCommand := by
  refine ⟨rfl, fun s => ?_⟩
  rcases execChecksum_cases s with ⟨bad, done⟩ | ⟨ok, invalid, done⟩ | ⟨ok, valid, done⟩
  · exact ⟨fun _ => done, fun ok => absurd ok bad, fun ok => absurd ok bad⟩
  · exact ⟨fun bad => absurd ok bad, fun _ _ => done, fun _ valid => absurd valid invalid⟩
  · exact ⟨fun bad => absurd ok bad, fun _ invalid => absurd valid invalid, fun _ _ => ⟨_, done, rfl⟩⟩

end Sys2Proof.Machine
end

section
/-! PROOFS. The statements of `42_configuration.md`: CFG_KEY (R170), CFG_IV (R171) and CFG_DEFAULT (R172). -/

namespace Sys2Proof.Machine

/-- A range that is not empty is valid exactly when it ends inside the memory (R58). -/
theorem Range.valid_iff_of_len_ne_zero {r : Range} (nonempty : r.len ≠ 0) (memBytes : Nat) :
    r.Valid memBytes ↔ r.base + r.len ≤ memBytes :=
  or_iff_right nonempty

/-- CFG_KEY reads 16 bytes whatever `SRC_LEN` holds, so its range is never empty (R170). -/
theorem cfgKey_valid_iff (s : State) :
    (inputRange .cfgKey s).Valid s.params.memBytes ↔ s.srcAddr.toNat + 16 ≤ s.params.memBytes :=
  Range.valid_iff_of_len_ne_zero (by simp [inputRange]) _

/-- CFG_IV reads 8 bytes whatever `SRC_LEN` holds, so its range is never empty (R171). -/
theorem cfgIv_valid_iff (s : State) :
    (inputRange .cfgIv s).Valid s.params.memBytes ↔ s.srcAddr.toNat + 8 ≤ s.params.memBytes :=
  Range.valid_iff_of_len_ne_zero (by simp [inputRange]) _

/-- A length check, then a range check (R206): from the three cases of a command, its answer in each of them. -/
theorem outcomes_of_two_checks {lengthOk fits badLength badRange completes : Prop}
    (answer : ¬ lengthOk ∧ badLength ∨ lengthOk ∧ ¬ fits ∧ badRange ∨ lengthOk ∧ fits ∧ completes) :
    (¬ lengthOk → badLength) ∧ (lengthOk → ¬ fits → badRange) ∧ (lengthOk → fits → completes) := by
  rcases answer with ⟨bad, done⟩ | ⟨ok, outside, done⟩ | ⟨ok, inside, done⟩
  · exact ⟨fun _ => done, fun ok => absurd ok bad, fun ok => absurd ok bad⟩
  · exact ⟨fun bad => absurd ok bad, fun _ _ => done, fun _ inside => absurd inside outside⟩
  · exact ⟨fun bad => absurd ok bad, fun _ outside => absurd inside outside, fun _ _ => done⟩

/-! ## The obligations -/

/-- Settles O29: the cases of CFG_KEY in the order of its checks, by the registers. -/
theorem cfgKeyCommand : Obligations.CfgKeyCommand := by
  refine ⟨rfl, fun s => ?_⟩
  have answer := execCfgKey_cases s
  rw [cfgKey_valid_iff] at answer
  exact outcomes_of_two_checks answer

/-- Settles O30: the cases of CFG_IV in the order of its checks, by the registers. -/
theorem cfgIvCommand : Obligations.CfgIvCommand := by
  refine ⟨rfl, fun s => ?_⟩
  have answer := execCfgIv_cases s
  rw [cfgIv_valid_iff] at answer
  exact outcomes_of_two_checks answer

/-- Settles O31: CFG_DEFAULT has no check, and always completes with the default key and IV 0. -/
theorem cfgDefaultCommand : Obligations.CfgDefaultCommand := ⟨rfl, execCfgDefault_next⟩

end Sys2Proof.Machine
end

section
/-! PROOFS. The statements of `60_exceptions.md`: what an error leaves (R207, R208), and reissuing the command that
ended with it (R209). -/

namespace Sys2Proof.Machine

/-! ## The two forms of an error -/

theorem code_eq_three_iff (e : ErrKind) : e.code = 3 ↔ e = .integrityError := by
  cases e <;> decide

/-- A command that ends with an error has raised it on its own state, or is a DECRYPT that did not verify
(R207, R208). -/
theorem Completes.error_cases {i : Instr} {s t : State} (h : Completes i s t) (failed : t.status.err = true) :
    (∃ e, e ≠ .integrityError ∧ t = s.raise e) ∨ (i = .decrypt ∧ t = Machine.unverified s) := by
  cases h with
  | error _ _ e other => exact .inl ⟨e, other, rfl⟩
  | unverified => exact .inr ⟨rfl, rfl⟩
  | _ => cases failed

/-- ERRCODE is 3 for IntegrityError alone: any other error leaves memory and the draw counter, and ERRCODE 3 only ends
DECRYPT (R200, R208). -/
theorem Completes.integrityError_only {i : Instr} {s t : State} (h : Completes i s t) (failed : t.status.err = true) :
    (t.status.errCode ≠ 3 → t.mem = s.mem ∧ t.draws = s.draws) ∧ (t.status.errCode = 3 → i = .decrypt) := by
  rcases h.error_cases failed with ⟨e, other, rfl⟩ | ⟨decrypt, rfl⟩
  · exact ⟨fun _ => ⟨rfl, rfl⟩, fun code => absurd ((code_eq_three_iff e).mp code) other⟩
  · exact ⟨fun code => absurd rfl code, fun _ => decrypt⟩

/-! ## What an error can write -/

/-- A state with new values in the only parts an error can write: STATUS, `DST_LEN` (0), memory, the draw counter and
the hidden state (R207, R208; log 4, log 7). -/
def State.afterError (status : Status) (m : Memory) (draws : Nat) (h : Hidden) (s : State) : State :=
  { s with status := status, dstLen := 0, mem := m, draws := draws, hidden := h }

theorem Completes.eq_afterError {i : Instr} {s t : State} (h : Completes i s t) (failed : t.status.err = true) :
    t = s.afterError t.status t.mem t.draws t.hidden := by
  rcases h.error_cases failed with ⟨e, -, rfl⟩ | ⟨-, rfl⟩ <;> rfl

/-! ## Reissuing the command -/

theorem inputRange_afterError (i : Instr) (status : Status) (m : Memory) (draws : Nat) (h : Hidden) (s : State) :
    inputRange i (s.afterError status m draws h) = inputRange i s := by
  cases i <;> rfl

theorem status_ite {c : Prop} [Decidable c] {a b a' b' : State} (ha : a.status = a'.status)
    (hb : b.status = b'.status) : (if c then a else b).status = (if c then a' else b').status := by
  split
  · exact ha
  · exact hb

/-- An error leaves everything a command's checks look at but memory: where its input bytes are the same too, the
command takes the same branch and ends with the same STATUS. -/
theorem exec_afterError_status {i : Instr} {s : State} {status : Status} {m : Memory} {draws : Nat} {h : Hidden}
    (input : ∀ x, (inputRange i s).Holds x → m.read x = s.mem.read x) :
    ∃ u t, exec i (s.afterError status m draws h) = .next u ∧ exec i s = .next t ∧ u.status = t.status := by
  have bytes : (s.afterError status m draws h).bytesIn (inputRange i (s.afterError status m draws h)) =
      s.bytesIn (inputRange i s) := by
    rw [inputRange_afterError]
    exact readBytes_congr fun x low high => input x ⟨low, high⟩
  cases i with
  | cfgKey => exact ⟨_, _, rfl, rfl, status_ite rfl (status_ite rfl rfl)⟩
  | cfgIv => exact ⟨_, _, rfl, rfl, status_ite rfl (status_ite rfl rfl)⟩
  | cfgDefault => exact ⟨_, _, rfl, rfl, rfl⟩
  | encrypt => exact ⟨_, _, rfl, rfl, status_ite rfl rfl⟩
  | decrypt =>
    refine ⟨_, _, rfl, rfl, status_ite rfl (status_ite rfl ?_)⟩
    rw [bytes]
    dsimp only [State.afterError]
    cases decryptStream s.params.delta (s.bytesIn (inputRange .decrypt s)) s.key s.iv with
    | ok => rfl
    | error => rfl
  | checksum => exact ⟨_, _, rfl, rfl, status_ite rfl (status_ite rfl rfl)⟩
  | encblk => exact ⟨_, _, rfl, rfl, rfl⟩
  | decblk => exact ⟨_, _, rfl, rfl, rfl⟩

/-! ## The obligations -/

/-- Settles O32: the two forms of an error give its code and its frame, and O36 the bytes no command writes. -/
theorem errorsLeaveEverythingElse : Obligations.ErrorsLeaveEverythingElse := by
  intro i s t h failed
  have done := completes_of_exec h
  obtain ⟨notBusy, isDone⟩ := done.busy_done
  obtain ⟨otherError, integrityError⟩ := done.integrityError_only failed
  obtain ⟨outside, input⟩ := commandsWriteOnlyTheirOutputRange i s t h
  have frame := congrArg State.withoutHidden (done.eq_afterError failed)
  refine ⟨notBusy, isDone, frame.trans rfl, otherError, input, fun code => ?_⟩
  obtain rfl := integrityError code
  exact ⟨rfl, outside⟩

/-- Settles O38: an error leaves the command's operands and, by O36, its input bytes, so its checks end the same way. -/
theorem errorsRepeat : Obligations.ErrorsRepeat := by
  intro i s t h failed
  have done := completes_of_exec h
  obtain ⟨-, input⟩ := commandsWriteOnlyTheirOutputRange i s t h
  obtain ⟨u, t', reissued, first, same⟩ := exec_afterError_status input
  cases h.symm.trans first
  rw [← done.eq_afterError failed] at reissued
  refine ⟨u, reissued, same, ?_⟩
  rw [(completes_of_exec reissued).dstLen_eq, done.dstLen_eq, same, if_pos failed, if_pos failed]

end Sys2Proof.Machine
end

section
/-! PROOFS. The statements of `70_reset_and_hazards.md`: reset and power-on (R230 to R232), whose turn it is and what
the host may do while a command is pending (R235 to R239, R242), and what a run leaves to be observed (R243). -/

namespace Sys2Proof.Machine

/-! ## The engine's turn -/

/-- The engine's turn with a legal pending word runs its command (R71, R239). -/
theorem step_command {s : State} {i : Instr} (unfaulted : s.hfault = false) (busy : s.status.busy = true)
    (turn : EngineTurn s) (pend : decode s.pend = .command i) : step s = exec i s.turnTaken :=
  (step_engine unfaulted turn).trans (engineStep_command (s := s.turnTaken) busy pend)

/-- The engine's turn with no command pending only takes its event (R239; log 15). -/
theorem step_engine_idle {s : State} (unfaulted : s.hfault = false) (idle : s.status.busy = false)
    (turn : EngineTurn s) : step s = .next s.turnTaken :=
  (step_engine unfaulted turn).trans (engineStep_idle (s := s.turnTaken) idle)

/-- The codes of R200 are 1 to 5. -/
theorem code_ne_zero_and_le (e : ErrKind) : e.code ≠ 0 ∧ e.code.toNat ≤ 5 := by
  cases e <;> decide

/-- A completed command has the STATUS of success or of one error (R104, R207). -/
theorem Completes.status_cases {i : Instr} {s t : State} (h : Completes i s t) :
    t.status = Status.completed ∨ ∃ e, t.status = Status.failed e := by
  cases h with
  | error _ _ e => exact .inr ⟨e, rfl⟩
  | unverified => exact .inr ⟨.integrityError, rfl⟩
  | _ => exact .inl rfl

/-- The engine's turn with a pending word, legal or not, leaves the STATUS of success or of one error (R239). -/
theorem EngineActs.status_cases {s t : State} (h : EngineActs s t) (busy : s.status.busy = true) :
    t.status = Status.completed ∨ ∃ e, t.status = Status.failed e := by
  cases h with
  | idle notBusy => exact absurd busy (Bool.eq_false_iff.mp notBusy)
  | illegal => exact .inr ⟨.illegalCommand, rfl⟩
  | command _ _ _ _ done => exact done.status_cases

/-- ERR is set exactly with a code that is not 0, which is then at most 5 (R23, R200). -/
theorem EngineActs.err_iff {s t : State} (h : EngineActs s t) (busy : s.status.busy = true) :
    (t.status.err = true ↔ t.status.errCode ≠ 0) ∧ t.status.errCode.toNat ≤ 5 := by
  rcases h.status_cases busy with success | ⟨e, failure⟩
  · rw [success]
    decide
  · obtain ⟨nonzero, le⟩ := code_ne_zero_and_le e
    rw [failure]
    exact ⟨iff_of_true rfl nonzero, le⟩

/-! ## The active ranges of the pending command (R237) -/

section
variable {s : State} {i : Instr}

theorem pendingInput_of_command (pend : decode s.pend = .command i) : pendingInput s = inputRange i s := by
  rw [pendingInput, pend]

theorem pendingOutput_of_command (pend : decode s.pend = .command i) : pendingOutput s = outputRange i s := by
  rw [pendingOutput, pend]

theorem pending_of_illegal {why : IllegalWord} (pend : decode s.pend = .illegal why) :
    pendingInput s = Range.empty ∧ pendingOutput s = Range.empty := by
  rw [pendingInput, pendingOutput, pend]
  exact ⟨rfl, rfl⟩

/-- With the command word of `i` pending, the active ranges are those of `i`. -/
theorem pending_holds_of_word (word : s.pend = encode i) (x : Nat) :
    ((pendingInput s).Holds x ↔ (inputRange i s).Holds x) ∧
      ((pendingOutput s).Holds x ↔ (outputRange i s).Holds x) := by
  have pend : decode s.pend = .command i := word ▸ decode_encode i
  rw [pendingInput_of_command pend, pendingOutput_of_command pend]
  exact ⟨Iff.rfl, Iff.rfl⟩

/-- A command without an output range has its input range alone. -/
theorem pending_input_only (word : s.pend = encode i) (noOutput : outputRange i s = Range.empty) (x : Nat) :
    ((pendingInput s).Holds x ↔ (inputRange i s).Holds x) ∧ ¬ (pendingOutput s).Holds x := by
  obtain ⟨input, output⟩ := pending_holds_of_word word x
  rw [noOutput] at output
  exact ⟨input, output.not.mpr (not_holds_empty x)⟩

end

/-- DECRYPT has no output below 4 bytes of input (R237). -/
theorem decrypt_output_holds_iff (s : State) (x : Nat) :
    (outputRange .decrypt s).Holds x ↔
      4 ≤ s.srcLen.toNat ∧ s.dstAddr.toNat ≤ x ∧ x < s.dstAddr.toNat + (s.srcLen.toNat - 4) := by
  simp only [Range.Holds, outputRange]
  omega

/-- A word of none of the five commands that touch memory has no active range: it is illegal, or one of the three
commands without ranges. -/
theorem pending_eq_empty {s : State}
    (other : s.pend ∉ [Instr.cfgKey, .cfgIv, .encrypt, .decrypt, .checksum].map encode) :
    pendingInput s = Range.empty ∧ pendingOutput s = Range.empty := by
  cases pend : decode s.pend with
  | illegal why => exact pending_of_illegal pend
  | command i =>
    rw [pendingInput_of_command pend, pendingOutput_of_command pend]
    rw [← encode_of_decode pend] at other
    cases i with
    | cfgDefault => exact ⟨rfl, rfl⟩
    | encblk => exact ⟨rfl, rfl⟩
    | decblk => exact ⟨rfl, rfl⟩
    | _ => exact absurd (by decide) other

/-- The output range of the pending command, by the registers: only ENCRYPT and DECRYPT have one. -/
theorem pendingOutput_holds_iff (s : State) (x : Nat) :
    (pendingOutput s).Holds x ↔
      s.dstAddr.toNat ≤ x ∧
      (decode s.pend = .command .encrypt ∧ x < s.dstAddr.toNat + framedLen s.srcLen.toNat ∨
        decode s.pend = .command .decrypt ∧ x < s.dstAddr.toNat + (s.srcLen.toNat - 4)) := by
  cases pend : decode s.pend with
  | illegal why =>
    obtain ⟨-, none⟩ := pending_of_illegal pend
    simp [none, Range.empty]
  | command i =>
    rw [pendingOutput_of_command pend]
    cases i <;> simp [outputRange, Range.empty]

/-! ## Reset (R230, R231) -/

theorem Range.clip_holds_iff (r : Range) (memBytes x : Nat) :
    (r.clip memBytes).Holds x ↔ x < memBytes ∧ r.Holds x := by
  simp only [Range.Holds, Range.clip]
  omega

theorem abortedRange_idle {s : State} (idle : s.status.busy = false) : abortedRange s = Range.empty := by
  simp [abortedRange, idle]

theorem abortedRange_busy {s : State} (busy : s.status.busy = true) :
    abortedRange s = (pendingOutput s).clip s.params.memBytes :=
  if_pos busy

/-- The state of R230, idle or busy, with `PEND`, memory and the draw counter as reset leaves them. -/
theorem assertReset_withoutHidden (s : State) :
    s.assertReset.withoutHidden =
      State.withoutHidden
        { s with
          status := Status.afterReset, srcAddr := 0, srcLen := 0, dstAddr := 0, dstLen := 0, blkLo := 0, blkHi := 0,
          csum := 0, key := keyOfBytes s.params.defaultKey.toList, iv := 0, pend := s.assertReset.pend,
          mem := s.assertReset.mem, draws := s.assertReset.draws } := by
  simp only [State.withoutHidden, State.assertReset, State.resetDomain, State.scramble]

/-- Reset leaves every byte outside the aborted range (R231). -/
theorem assertReset_read {s : State} {x : Nat} (outside : ¬ (abortedRange s).Holds x) :
    s.assertReset.mem.read x = s.mem.read x :=
  read_writeBytes_of_not_holds (freeBytes_length _ _) outside

theorem powerOn_readReg (p : Params) (m : Memory) (r : Reg) : (State.powerOn p m).readReg r = 0 := by
  cases r with
  | status => exact (by decide : Status.afterReset.word = 0)
  | _ => rfl

/-- The key at power-on has the bytes of `DEFAULT_KEY` (R54, R230). -/
theorem powerOn_key_bytes (p : Params) (m : Memory) : (State.powerOn p m).key.bytes = p.defaultKey.toList :=
  keyOfBytes_bytes_of_length (by simp)

/-! ## Host reads and writes (R237, R238) -/

section
variable {s : State} {rest : List Event} {offset x : Nat} {r : Reg} {b : Byte}

/-- A 32-bit read of a result register while busy (R238). -/
theorem step_reads_result (unfaulted : s.hfault = false) (first : s.events = .host (.regRead 32 offset) :: rest)
    (reached : regAt offset = some r) (busy : s.status.busy = true) (result : isResultReg r = true) :
    step s = .next
      { s with
        replies := .word (Config.freeWord s.draws) :: s.replies, events := rest, draws := s.draws + 1 } :=
  (step_host unfaulted first).trans (hostRegRead_result (width := 32) reached ⟨busy, result⟩)

/-- A byte read in the output range of the pending command (R237). -/
theorem step_reads_output (unfaulted : s.hfault = false) (inside : x < s.params.memBytes)
    (first : s.events = .host (.memRead x) :: rest)
    (output : s.status.busy = true ∧ (pendingOutput s).Holds x) :
    step s = .next
      { s with
        replies := .byte (Config.freeByte s.draws) :: s.replies, events := rest, draws := s.draws + 1 } :=
  (step_host unfaulted first).trans
    (hostMemRead_output (s := { s with events := rest }) (Nat.not_le.mpr inside) output)

/-- Every other byte read (R237, R242). -/
theorem step_reads_byte (unfaulted : s.hfault = false) (inside : x < s.params.memBytes)
    (first : s.events = .host (.memRead x) :: rest)
    (value : ¬ (s.status.busy = true ∧ (pendingOutput s).Holds x)) :
    step s = .next { s with replies := .byte (s.mem.read x) :: s.replies, events := rest } :=
  (step_host unfaulted first).trans
    (hostMemRead_value (s := { s with events := rest }) (Nat.not_le.mpr inside) value)

/-- A byte write into an active range (R237). -/
theorem step_writes_active (unfaulted : s.hfault = false) (inside : x < s.params.memBytes)
    (first : s.events = .host (.memWrite x b) :: rest)
    (active : s.status.busy = true ∧ ((pendingInput s).Holds x ∨ (pendingOutput s).Holds x)) :
    step s = .next { s with hfault := true, events := rest } :=
  (step_host unfaulted first).trans
    (hostMemWrite_active (s := { s with events := rest }) (Nat.not_le.mpr inside) active)

/-- Every other byte write (R57, R237, R242). -/
theorem step_writes_byte (unfaulted : s.hfault = false) (inside : x < s.params.memBytes)
    (first : s.events = .host (.memWrite x b) :: rest)
    (free : ¬ (s.status.busy = true ∧ ((pendingInput s).Holds x ∨ (pendingOutput s).Holds x))) :
    step s = .next { s with mem := s.mem.write x b, events := rest } :=
  (step_host unfaulted first).trans
    (hostMemWrite_stores (s := { s with events := rest }) (Nat.not_le.mpr inside) free)

end

/-- The offsets of the result registers (R20, R238). -/
theorem result_of_offset : ∀ offset ∈ [0x14, 0x18, 0x1C, 0x20], ∃ r ∈ regAt offset, isResultReg r = true := by
  decide

/-- Either way out of "busy and active" leaves the access free. -/
theorem not_busy_and {busy : Bool} {active : Prop} (h : busy = false ∨ ¬ active) : ¬ (busy = true ∧ active) := by
  rcases h with idle | outside
  · simp [idle]
  · exact fun both => outside both.2

/-! ## The observation of a run (R243) -/

/-- No host operation is left exactly when every turn left is the engine's. -/
theorem all_engine_iff (events : List Event) : (∀ e ∈ events, e = .engine) ↔ ∀ op, .host op ∉ events := by
  refine ⟨fun engine op left => (nomatch engine _ left), fun noHost e left => ?_⟩
  cases e with
  | host op => exact absurd left (noHost op)
  | engine => rfl

theorem observe_eq_none {s : State} (h : ¬ (s.Ended ∧ s.hfault = false)) : s.observe = none := if_neg h

/-! ## The obligations -/

/-- Settles O7: the engine's turn never stops the model, and completes the pending word with the STATUS of success or of
one of the five errors. -/
theorem everyPendingWordCompletes : Obligations.EveryPendingWordCompletes := by
  intro s unfaulted busy turn
  obtain ⟨t, done⟩ := engineStep_next s.turnTaken
  have acts := acts_of_engineStep done
  obtain ⟨idle, finished⟩ := acts.busy_done busy
  obtain ⟨err, code⟩ := acts.err_iff busy
  exact ⟨t, (step_engine unfaulted turn).trans done, idle, finished, err, code⟩

/-- Settles O40: the state of R230, and the aborted range by the registers. -/
theorem resetAbortsThePendingCommand : Obligations.ResetAbortsThePendingCommand := by
  refine fun s busy => ⟨assertReset_withoutHidden s, fun x outside => assertReset_read ?_⟩
  rwa [abortedRange_busy busy, Range.clip_holds_iff, pendingOutput_holds_iff]

/-- Settles O50: the ranges of each of the five commands that have one, and no range for any other word. -/
theorem activeRangesOfThePendingCommand : Obligations.ActiveRangesOfThePendingCommand := by
  refine fun s =>
    ⟨fun word => pending_input_only (i := .cfgKey) word rfl, fun word => pending_input_only (i := .cfgIv) word rfl,
      fun word => pending_holds_of_word (i := .encrypt) word, fun word x => ?_,
      fun word => pending_input_only (i := .checksum) word rfl, fun other x => ?_⟩
  · exact (pending_holds_of_word (i := .decrypt) word x).imp_right (·.trans (decrypt_output_holds_iff s x))
  · obtain ⟨noInput, noOutput⟩ := pending_eq_empty other
    rw [noInput, noOutput]
    exact ⟨not_holds_empty x, not_holds_empty x⟩

/-- Settles O4: at either of its turns the engine runs the decoded command. -/
theorem engineTurnRunsTheDecodedCommand : Obligations.EngineTurnRunsTheDecodedCommand := by
  refine fun s i unfaulted busy pend => ⟨fun none => ?_, fun rest first => ?_⟩
  · rw [step_command unfaulted busy (.inl none) pend, turnTaken_of_nil none]
  · rw [step_command unfaulted busy (.inr ⟨rest, first⟩) pend, turnTaken_of_cons first]

/-- Settles O5: the host's turn. -/
theorem hostEventRunsTheHostOperation : Obligations.HostEventRunsTheHostOperation :=
  fun _ _ _ => step_host

/-- Settles O6: no step with `HFAULT = 1`, and an idle engine at either of its turns. -/
theorem engineDisabledWhenIdleOrFaulted : Obligations.EngineDisabledWhenIdleOrFaulted := by
  refine fun s => ⟨step_faulted, fun unfaulted idle none => ?_, fun rest unfaulted idle first => ?_⟩
  · rw [step_engine_idle unfaulted idle (.inl none), turnTaken_of_nil none]
  · rw [step_engine_idle unfaulted idle (.inr ⟨rest, first⟩), turnTaken_of_cons first]

/-- Settles O39: the state of R230, and with no command to abort every byte stays. -/
theorem resetWhileIdle : Obligations.ResetWhileIdle := by
  refine fun s idle => ⟨assertReset_withoutHidden s, fun x => assertReset_read ?_⟩
  rw [abortedRange_idle idle]
  exact not_holds_empty x

/-- Settles O42: each register at power-on, and the key by its bytes. -/
theorem powerOnState : Obligations.PowerOnState :=
  ⟨rfl, fun p m => ⟨powerOn_readReg p m, rfl, fun _ _ => by rw [powerOn_key_bytes], rfl, rfl, rfl, rfl⟩⟩

/-- Settles O47: the registers with a value while busy, and the result registers. -/
theorem busyRegisterReads : Obligations.BusyRegisterReads := by
  intro s rest offset v unfaulted started first
  refine ⟨fun entry => ?_, fun results => ?_⟩
  · have word : s.status.word = 1 := by rw [started]; decide
    have value : ∃ r, regAt offset = some r ∧ isResultReg r = false ∧ s.readReg r = v := by
      rw [← word] at entry
      simp only [List.mem_cons, Prod.mk.injEq, List.not_mem_nil, or_false] at entry
      casesm* _ ∨ _, _ ∧ _ <;> subst_vars <;> exact ⟨_, rfl, rfl, rfl⟩
    obtain ⟨r, reached, notResult, rfl⟩ := value
    exact step_reads unfaulted first reached (.inr notResult)
  · obtain ⟨r, reached, result⟩ := result_of_offset offset results
    exact ⟨_, _, step_reads_result unfaulted first reached (congrArg Status.busy started) result⟩

/-- Settles O48: a register write while busy. -/
theorem busyRegisterWritesFault : Obligations.BusyRegisterWritesFault :=
  fun _ _ _ _ _ => step_write_busy

/-- Settles O51: a byte write into an active range, and every other byte write. -/
theorem hostByteWrites : Obligations.HostByteWrites := by
  intro s rest x b unfaulted inside first
  exact ⟨fun busy active => step_writes_active unfaulted inside first ⟨busy, active⟩,
    fun free => ⟨_, step_writes_byte unfaulted inside first (not_busy_and free), read_write s.mem x b⟩⟩

/-- Settles O52: a byte read in the output range while busy, and every other byte read. -/
theorem hostByteReads : Obligations.HostByteReads := by
  intro s rest x unfaulted inside first
  exact ⟨fun busy output => ⟨_, _, step_reads_output unfaulted inside first ⟨busy, output⟩⟩,
    fun value => step_reads_byte unfaulted inside first (not_busy_and value)⟩

/-- Settles O60: what keeps a run from having ended, and the observation of one that has. -/
theorem observationOfARun : Obligations.ObservationOfARun := by
  intro s
  refine ⟨fun faulted => observe_eq_none ?_, fun busy => observe_eq_none ?_,
    fun ⟨op, left⟩ => observe_eq_none ?_, fun unfaulted idle noHost => ?_⟩
  · simp [faulted]
  · simp [busy]
  · exact fun ⟨⟨engine, _⟩, _⟩ => (all_engine_iff s.events).mp engine op left
  · exact if_pos ⟨⟨(all_engine_iff s.events).mpr noHost, idle⟩, unfaulted⟩

end Sys2Proof.Machine
end

section
/-! PROOFS. What follows from the rules together and is the spec's own inference: the schedule of `sum`, the two block
transforms as inverses of each other (R100, R101), ENCBLK followed by DECBLK (R104, R105), and the table of `FramedLen`
and `PadLen` (R121, R122). -/

namespace Sys2Proof.Machine

/-! ## The sum in each round -/

/-- Each decryption round takes `DELTA` from the sum (R101). -/
theorem repeatRound_decryptRound_sum (delta : Word) (k : Key) (n : Nat) (r : RoundState) :
    (repeatRound (decryptRound delta k) n r).sum = r.sum - delta * BitVec.ofNat 32 n := by
  induction n with
  | zero => simp
  | succ n ih =>
    have taken : (repeatRound (decryptRound delta k) (n + 1) r).sum =
        (repeatRound (decryptRound delta k) n r).sum - delta := by rw [repeatRound_succ]; rfl
    rw [taken, ih, BitVec.ofNat_add, BitVec.mul_add, ← BitVec.sub_sub]
    simp

/-- After `m` decryption rounds, with `n` still to come, the sum is `n * DELTA` (R101). -/
theorem decryptStart_rounds_sum (delta low high : Word) (k : Key) {m n : Nat} (total : n + m = rounds) :
    (repeatRound (decryptRound delta k) m (decryptStart delta low high)).sum = BitVec.ofNat 32 n * delta := by
  have start : (decryptStart delta low high).sum = delta * BitVec.ofNat 32 (n + m) := by rw [total]; rfl
  rw [repeatRound_decryptRound_sum, start, BitVec.ofNat_add, BitVec.mul_add, BitVec.add_sub_cancel, BitVec.mul_comm]

/-- After `n` encryption rounds the sum is `n * DELTA` (R100). -/
theorem encryptStart_rounds_sum (delta low high : Word) (k : Key) (n : Nat) :
    (repeatRound (encryptRound delta k) n (encryptStart low high)).sum = BitVec.ofNat 32 n * delta := by
  rw [repeatRound_encryptRound_sum, BitVec.mul_comm]
  exact BitVec.zero_add _

/-- Decryption ends with the sum encryption starts from (R100, R101). -/
theorem decryptRounds_sum (delta low high : Word) (k : Key) : (decryptRounds delta low high k).sum = 0 := by
  rw [decryptRounds, decryptStart_rounds_sum (n := 0) delta low high k (Nat.zero_add rounds)]
  exact BitVec.zero_mul

/-! ## The inverse of a decryption -/

/-- An encryption round undoes a decryption round on the triple (R100, R101). -/
theorem encryptLine_decryptLine (delta : Word) (k : Key) :
    Function.LeftInverse (encryptLine delta k) (decryptLine delta k) :=
  fun _ => congrArg RoundState.triple (encryptRound_decryptRound delta k _)

/-- `EncryptBlock` undoes `DecryptBlock` (R100, R101). -/
theorem encryptBlock_decryptBlock (delta low high : Word) (k : Key) :
    encryptBlock delta (decryptBlock delta low high k).1 (decryptBlock delta low high k).2 k = (low, high) := by
  have after : ((0 : Word), decryptBlock delta low high k) =
      (decryptLine delta k)^[rounds] (delta * 32, low, high) := by
    rw [← decryptRounds_triple, ← decryptRounds_sum delta low high k]
    rfl
  rw [encryptBlock_eq_triple, encryptRounds_triple, Prod.mk.eta, after,
    (encryptLine_decryptLine delta k).iterate rounds]

/-! ## ENCBLK followed by DECBLK -/

/-- DECBLK on what ENCBLK left puts both `BLK` words back (R104, R105). -/
theorem blockDecrypted_blockEncrypted_withoutHidden (s : State) :
    (blockDecrypted (blockEncrypted s)).withoutHidden = State.withoutHidden { s with status := Status.completed } := by
  have restored : decryptBlock (blockEncrypted s).params.delta (blockEncrypted s).blkLo (blockEncrypted s).blkHi
      (blockEncrypted s).key = (s.blkLo, s.blkHi) := decryptBlock_encryptBlock ..
  rw [blockDecrypted_withoutHidden, restored]
  rfl

/-! ## Padding by the length modulo 8 -/

/-- The padding brings the length to 4 modulo 8 (R121, R122). -/
theorem padLen_eq (l : Nat) : padLen l = (12 - l % 8) % 8 := by
  rw [padLen, framedLen_eq]
  omega

/-- The two tables, each entry against the padding for its residue; the checksum adds 4 bytes. -/
theorem framing_tables : ∀ m < 8,
    [8, 7, 6, 5, 4, 11, 10, 9].getD m 0 = (12 - m) % 8 + 4 ∧ [4, 3, 2, 1, 0, 7, 6, 5].getD m 0 = (12 - m) % 8 := by
  decide

/-! ## The obligations -/

/-- Settles O11: each round moves the sum by `DELTA`, and a decryption round undoes the encryption round before it. -/
theorem sumSchedule : Obligations.SumSchedule := by
  intro delta low high k r first last before after
  have undone : decryptRound delta k after = { before with rnd := before.rnd + 1 + 1 } :=
    decryptRound_encryptRound delta k before
  have position : 33 - r = 32 - r + 1 := by omega
  have paired : after = repeatRound (encryptRound delta k) (33 - r) (encryptStart low high) := by
    rw [position, repeatRound_succ]
  refine ⟨encryptStart_rounds_sum delta low high k r, decryptStart_rounds_sum delta low high k ?_, ?_,
    by rw [undone], by rw [undone], decryptRounds_sum delta low high k⟩
  · show 33 - r + (r - 1) = 32
    omega
  · rw [paired, encryptStart_rounds_sum]

/-- Settles O10: the rounds of either transform undo those of the other, one by one, from the last to the first. -/
theorem blockTransformsAreInverse : Obligations.BlockTransformsAreInverse :=
  fun delta low high k =>
    ⟨decryptBlock_encryptBlock delta low high k, encryptBlock_decryptBlock delta low high k⟩

/-- Settles O14: both commands always complete, and the second undoes the first's transform under the same key. -/
theorem encblkThenDecblkRestoresTheBlock : Obligations.EncblkThenDecblkRestoresTheBlock :=
  fun s => ⟨blockEncrypted s, blockDecrypted (blockEncrypted s), execEncblk_next s, execDecblk_next _,
    blockDecrypted_blockEncrypted_withoutHidden s⟩

/-- Settles O17: the padding by the residue, looked up in the tables. -/
theorem framedLengthTable : Obligations.FramedLengthTable := by
  intro l
  obtain ⟨framedEntry, padEntry⟩ := framing_tables (l % 8) (Nat.mod_lt l (by decide))
  refine ⟨?_, (padLen_eq l).trans padEntry.symm, framedLen_mod l, framedLen_ge l⟩
  rw [framedEntry, ← padLen_eq, ← Nat.add_assoc, padLen_add]

end Sys2Proof.Machine
end
